-- ==== Sys2Proof/Word.lean ====
section
/-! DEFINITION. The word types of LZWD: only widths the spec names (00_scope.md R6, R7; 10_state.md R11). -/

namespace Sys2Proof

/-- One byte of the payload memory `IN` (20_memory.md R34). -/
abbrev Byte := BitVec 8

/-- One output symbol, `SYM_W = 11` bits (00_scope.md R6, 20_memory.md R44). -/
abbrev Symbol := BitVec 11

/-- A fetched code, zero-extended to the widest code width, `MAX_CW = 12` bits (20_memory.md R38, 30_encoding.md R52). -/
abbrev Code := BitVec 12

/-- A value written to a register: 64 bits, the bits `CTRL` numbers (10_state.md R19, R22). -/
abbrev RegValue := BitVec 64

end Sys2Proof
end

