-- ==== Sys2Proof/Config.lean ====
section
/-! DEFINITION. The constants of LZWD (00_scope.md R6) and the free values: what the spec leaves open is an opaque
constant with no body, so that no proof can learn a value of it. -/

namespace Sys2Proof

/-- `MAX_CW`, the greatest code width in bits (00_scope.md R6). -/
def Config.maxCw : Nat := 12

/-- `DICT_CAP`, the greatest number of dictionary entries (00_scope.md R6). -/
def Config.dictCap : Nat := 4096

/-- `MINCS_MIN`, the least legal `MINCS` (00_scope.md R6; 92_eei_decisions.md D3). -/
def Config.mincsMin : Nat := 2

/-- `MINCS_MAX`, the greatest legal `MINCS`.
DESIGN CHOICE (log 12): the spec lets a model narrow it to 8; this model keeps the spec's own 11. -/
def Config.mincsMax : Nat := 11

/-- The least code width a fetch can have: `MINCS_MIN + 1` (20_memory.md R38: `3 <= n <= 12`). -/
def Config.minCw : Nat := 3

/-- FREE VALUE (log 3): what byte `a` of `IN` holds after the hardware reset numbered `epoch` until the host loads it.
10_state.md R32: "unspecified after hardware reset"; 93_implementation_defined.md U11, U12: `any value`. -/
opaque Config.unloadedByte : (epoch : Nat) → (a : Nat) → Byte

/-- FREE VALUE (log 5): what the `draw`-th DRAIN of a position at or above `OUTLEN` answers.
43_host_commands.md R94 states a result for `i < OUTLEN` only. -/
opaque Config.drainBeyond : (draw : Nat) → Symbol

end Sys2Proof
end

