-- ==== Sys2Proof/Syntax.lean ====
section
/-! DEFINITION. The syntax: one constructor per row of spec/opcode_table.json, the transactions in which the platform
carries host commands, and the registers a code is read against. -/

namespace Sys2Proof

/-- The operations of LZWD. The first five are the code classes of 30_encoding.md R53, which the core executes; the other
six are the host commands of 43_host_commands.md R87. -/
inductive Instr where
  /-- `CLR`, the clear code (41_control_codes.md R72). -/
  | clr
  /-- `EOI`, the end-of-information code (41_control_codes.md R75). -/
  | eoi
  /-- `KNOWN`, a code that indexes an existing entry (42_data_codes.md R80). -/
  | known (code : Code)
  /-- `NEXT`, the code equal to the next entry to be assigned (42_data_codes.md R82). -/
  | next (code : Code)
  /-- `BAD`, a code beyond the next entry (42_data_codes.md R84). -/
  | bad (code : Code)
  /-- `START`, begin a run (43_host_commands.md R90). -/
  | start
  /-- `RST`, soft reset (43_host_commands.md R92). -/
  | rst
  /-- `WRREG n, v`, write a register (43_host_commands.md R88). -/
  | wrreg (n : Nat) (v : RegValue)
  /-- `RDREG n`, read a register (43_host_commands.md R89). -/
  | rdreg (n : Nat)
  /-- `LOAD a, b`, write a payload byte (43_host_commands.md R93). -/
  | load (a : BitVec 32) (b : Byte)
  /-- `DRAIN i`, read an output symbol (43_host_commands.md R94). -/
  | drain (i : Nat)
  deriving DecidableEq, Repr

/-- A host transaction as the platform's bus carries it, before it is read as a command. 30_encoding.md R57: `START` and
`RST` are writes to register 0; the other commands have no bit-level encoding (92_eei_decisions.md D1, parameter `BUS`). -/
inductive HostCmd where
  | write (n : Nat) (v : RegValue)
  | read (n : Nat)
  | load (a : BitVec 32) (b : Byte)
  | drain (i : Nat)
  deriving DecidableEq, Repr

/-- The registers against which a code is read (30_encoding.md R53, R56): `MINCS` gives `CLEAR` and `EOI`, `DLEN` splits the
data codes, `CW` is the code's length. -/
structure CodeCtx where
  mincs : BitVec 8
  dlen : BitVec 13
  cw : BitVec 4
  deriving DecidableEq, Repr

/-- An operation as it is carried: a code as its bits, the first one its bit 0 (20_memory.md R37), a host command as its
transaction. -/
inductive Encoded where
  | code (bits : List Bool)
  | cmd (c : HostCmd)
  deriving DecidableEq, Repr

/-- Why the decoder rejects. No value of a code is rejected (30_encoding.md R53: the decoder is total). -/
inductive DecodeError where
  /-- Fewer than `CW` bits are left (20_memory.md R38); the machine then raises `UnexpectedEndOfStream`. -/
  | truncated
  /-- `CW` is outside 3 to 12, so there is no code format (30_encoding.md R51; 91_not_in_source.md N17). -/
  | badWidth
  deriving DecidableEq, Repr

end Sys2Proof
end

