-- ==== Sys2Proof/Machine/Derived.lean ====
section
/-! DEFINITION. The values that are not registers but functions of `MINCS` (00_scope.md R6, 10_state.md R20), and the
legality of `MINCS`. -/

namespace Sys2Proof.Machine

/-- `CLEAR = 1 << MINCS`. -/
def clearOf (mincs : BitVec 8) : Nat := 2 ^ mincs.toNat

/-- `EOI = CLEAR + 1`. -/
def eoiOf (mincs : BitVec 8) : Nat := clearOf mincs + 1

/-- `CW0 = MINCS + 1`, the initial code width. -/
def initialCw (mincs : BitVec 8) : Nat := mincs.toNat + 1

/-- `DLEN0 = CLEAR + 2`, the dictionary length after `Clear()`. -/
def initialDlen (mincs : BitVec 8) : Nat := clearOf mincs + 2

/-- `2 <= MINCS <= 11`, the values START accepts (43_host_commands.md R90). -/
def mincsLegal (mincs : BitVec 8) : Bool :=
  decide (Config.mincsMin ≤ mincs.toNat) && decide (mincs.toNat ≤ Config.mincsMax)

end Sys2Proof.Machine
end

