-- ==== Sys2Proof/WellFormed.lean ====
section
/-! DEFINITION. When an operation is well-formed: a code is the one its class admits against the registers it is read
with (30_encoding.md R53), a host command is not another command's transaction (30_encoding.md R57). -/

namespace Sys2Proof

open Sys2Proof.Machine

/-- The registers of a run between steps, as far as codes depend on them (10_state.md R31 I1 to I4). -/
def CodeCtx.legal (c : CodeCtx) : Bool :=
  mincsLegal c.mincs && decide (initialDlen c.mincs ≤ c.dlen.toNat) && decide (c.dlen.toNat ≤ Config.dictCap)
    && decide (initialCw c.mincs ≤ c.cw.toNat) && decide (c.cw.toNat ≤ Config.maxCw)
    && decide (c.dlen.toNat < 2 ^ c.cw.toNat ∨ c.cw.toNat = Config.maxCw ∧ c.dlen.toNat = Config.dictCap)

/-- A write to `CTRL` with a command bit set: it is `START` or `RST`, not a `WRREG` (30_encoding.md R57). -/
def isCtrlCommand (n : Nat) (v : RegValue) : Bool :=
  decide (n = 0) && (v.getLsbD 0 || v.getLsbD 1)

/-- Well-formedness of an operation against the registers `c`. -/
def Instr.wellFormed (c : CodeCtx) : Instr → Bool
  | .clr => c.legal
  | .eoi => c.legal
  | .known code =>
      c.legal && decide (code.toNat < c.dlen.toNat) && decide (code.toNat ≠ clearOf c.mincs)
        && decide (code.toNat ≠ eoiOf c.mincs)
  | .next code => c.legal && decide (code.toNat = c.dlen.toNat) && decide (code.toNat < 2 ^ c.cw.toNat)
  | .bad code => c.legal && decide (c.dlen.toNat < code.toNat) && decide (code.toNat < 2 ^ c.cw.toNat)
  | .start => true
  | .rst => true
  | .wrreg n v => !isCtrlCommand n v
  | .rdreg _ => true
  | .load _ _ => true
  | .drain _ => true

end Sys2Proof
end

