-- ==== Sys2Proof/Decode.lean ====
section
/-! DEFINITION. The decoder, from bits and transactions to operations, total and rejecting by name; then the encoder,
written from the same rules (30_encoding.md R51 to R59). -/

namespace Sys2Proof

open Sys2Proof.Machine

/-- The number whose bits are listed least significant first: `sum over i of bit i << i` (20_memory.md R37). -/
def assemble : List Bool → Nat
  | [] => 0
  | b :: bs => b.toNat + 2 * assemble bs

/-- The `n` low bits of `v`, least significant first. -/
def bitsOf : (n v : Nat) → List Bool
  | 0, _ => []
  | n + 1, v => (v % 2 == 1) :: bitsOf n (v / 2)

/-- The ordered tests of 30_encoding.md R53. -/
def classify (c : CodeCtx) (code : Code) : Instr :=
  if code.toNat = clearOf c.mincs then .clr
  else if code.toNat = eoiOf c.mincs then .eoi
  else if code.toNat < c.dlen.toNat then .known code
  else if code.toNat = c.dlen.toNat then .next code
  else .bad code

/-- One code off the front of a bit string: its length is `CW`, nothing in the code announces it (30_encoding.md R56). -/
def decodeBits (c : CodeCtx) (bits : List Bool) : Except DecodeError (Instr × List Bool) :=
  if c.cw.toNat < Config.minCw ∨ Config.maxCw < c.cw.toNat then .error .badWidth
  else if bits.length < c.cw.toNat then .error .truncated
  else .ok (classify c (BitVec.ofNat 12 (assemble (bits.take c.cw.toNat))), bits.drop c.cw.toNat)

/-- The bits of a byte string in address order, least significant first within each byte (20_memory.md R36). -/
def bitsOfBytes : List Byte → List Bool
  | [] => []
  | b :: bs => bitsOf 8 b.toNat ++ bitsOfBytes bs

/-- One code off the front of a byte string; the rest comes back as bits, since codes are not byte-aligned
(20_memory.md R39). -/
def decodeBytes (c : CodeCtx) (bytes : List Byte) : Except DecodeError (Instr × List Bool) :=
  decodeBits c (bitsOfBytes bytes)

/-- A transaction read as a command (30_encoding.md R57): a write to `CTRL` with `v[1]` set is `RST`, with `v[1:0] = 01` is
`START`; every other write is `WRREG`. -/
def decodeCmd : HostCmd → Instr
  | .write n v =>
      if n = 0 ∧ v.getLsbD 1 = true then .rst
      else if n = 0 ∧ v.getLsbD 0 = true then .start
      else .wrreg n v
  | .read n => .rdreg n
  | .load a b => .load a b
  | .drain i => .drain i

/-- Either form decoded. -/
def decode (c : CodeCtx) : Encoded → Except DecodeError (Instr × List Bool)
  | .code bits => decodeBits c bits
  | .cmd t => .ok (decodeCmd t, [])

/-- The operation the table's numbered bits select. Only the rows `START` and `RST` have such bits, those of the value
written to `CTRL` (spec/opcode_table.json, format HOSTCMD), so the word is that value (log 11). -/
def decodeTableWord (nbits w : Nat) : Option Instr :=
  some (decodeCmd (.write 0 (BitVec.ofNat 64 (w % 2 ^ nbits))))

/-- The value of an operation's code (30_encoding.md R53), `none` for a host command. -/
def codeValue (c : CodeCtx) : Instr → Option Nat
  | .clr => some (clearOf c.mincs)
  | .eoi => some (eoiOf c.mincs)
  | .known code => some code.toNat
  | .next code => some code.toNat
  | .bad code => some code.toNat
  | .start => none
  | .rst => none
  | .wrreg _ _ => none
  | .rdreg _ => none
  | .load _ _ => none
  | .drain _ => none

/-- A code's encoding: its value in `CW` bits. -/
def encodeCode (c : CodeCtx) (v : Nat) : Encoded := .code (bitsOf c.cw.toNat v)

/-- The encoder. -/
def encode (c : CodeCtx) : Instr → Encoded
  | .clr => encodeCode c (clearOf c.mincs)
  | .eoi => encodeCode c (eoiOf c.mincs)
  | .known code => encodeCode c code.toNat
  | .next code => encodeCode c code.toNat
  | .bad code => encodeCode c code.toNat
  | .start => .cmd (.write 0 1#64)
  | .rst => .cmd (.write 0 2#64)
  | .wrreg n v => .cmd (.write n v)
  | .rdreg n => .cmd (.read n)
  | .load a b => .cmd (.load a b)
  | .drain i => .cmd (.drain i)

/-- A payload item `value/width` of the notation of 30_encoding.md R58. -/
abbrev Item := Nat × Nat

/-- The bits of a list of items, one after the other with no gap (30_encoding.md R51, R59). -/
def bitsOfItems : List Item → List Bool
  | [] => []
  | (v, w) :: r => bitsOf w v ++ bitsOfItems r

/-- Bits into bytes, the unused high bits of the last byte 0 (30_encoding.md R59); `fuel` bounds the number of bytes. -/
def packBitsFuel : (fuel : Nat) → List Bool → List Byte
  | 0, _ => []
  | _ + 1, [] => []
  | fuel + 1, b :: bs => BitVec.ofNat 8 (assemble ((b :: bs).take 8)) :: packBitsFuel fuel ((b :: bs).drop 8)

/-- The packing procedure of 30_encoding.md R59: `ceil(p / 8)` bytes for `p` bits. -/
def packBits (bits : List Bool) : List Byte := packBitsFuel bits.length bits

end Sys2Proof
end

