-- ==== Sys2Proof/Machine/Sparse.lean ====
section
/-! DEFINITION. Sparse data by number, in one canonical form: keys strictly rising, an unlisted key holds nothing. `IN` and
`DICT` are kept so. -/

namespace Sys2Proof.Machine

/-- What key `a` holds, if listed. -/
def sparseGet {β : Type} : (m : List (Nat × β)) → (a : Nat) → Option β
  | [], _ => none
  | (k, v) :: r, a => if k = a then some v else sparseGet r a

/-- `a` made to hold `v`, the keys kept strictly rising. -/
def sparseSet {β : Type} : (m : List (Nat × β)) → (a : Nat) → (v : β) → List (Nat × β)
  | [], a, v => [(a, v)]
  | (k, w) :: r, a, v =>
      if a < k then (a, v) :: (k, w) :: r
      else if a = k then (a, v) :: r
      else (k, w) :: sparseSet r a v

/-- The canonical form, for keys below `bound`. -/
abbrev sparseWf {β : Type} (bound : Nat) (m : List (Nat × β)) : Prop :=
  m.Pairwise (fun x y => x.1 < y.1) ∧ ∀ x ∈ m, x.1 < bound

end Sys2Proof.Machine
end

