-- ==== Sys2Proof/Machine/State.lean ====
section
/-! DEFINITION. The state of one LZWD instance as plain data: the list of 10_state.md R11, whole, and the model's own four
fields; the reasons a step can stop; the state after hardware reset (10_state.md R32). -/

namespace Sys2Proof.Machine

/-- `STATUS`: its four values are all there are (10_state.md R16). Its 2-bit numbers are `statusNumber` of Flags.lean. -/
inductive Status where
  | idle
  | run
  | done
  | fault
  deriving DecidableEq, Repr

/-- `ERR`: its four values are all there are (10_state.md R17, 60_exceptions.md R96). Its 2-bit numbers are `errNumber` of
Flags.lean. -/
inductive ErrKind where
  | none
  | unexpectedEndOfStream
  | invalidLzwCode
  | invalidMinCodeSize
  deriving DecidableEq, Repr

/-- The contents of a dictionary slot in use (10_state.md R27): a sequence of symbols (the empty one in slot `CLEAR`), or
`invalid` (slot `EOI`). An unassigned slot is unlisted. -/
inductive Entry where
  | seq (symbols : List Symbol)
  | invalid
  deriving DecidableEq, Repr

/-- `DICT`: the assigned slots, by code value (10_state.md R26). -/
abbrev Dict := List (Nat × Entry)

/-- `IN`: the bytes the host has loaded since the last hardware reset, by byte address (20_memory.md R34). -/
abbrev Memory := List Host.Cell

/-- `IN` in its canonical form: addresses strictly rising and of 32 bits. An unlisted address holds no value of the
model's, so no entry can equal what an unlisted address reads as. -/
abbrev Memory.wf (m : Memory) : Prop := sparseWf (2 ^ 32) m

/-- `DICT` in its canonical form: slots strictly rising and below `DICT_CAP`. -/
abbrev Dict.wf (d : Dict) : Prop := sparseWf Config.dictCap d

/-- What the host has received (43_host_commands.md R89, R94). -/
inductive Answer where
  /-- A register's value, zero-extended; a natural number because `OUTLEN` is one (10_state.md R19, R23; log 8). -/
  | reg (value : Nat)
  /-- A symbol of `OUT`. -/
  | sym (k : Symbol)
  deriving DecidableEq, Repr

/-- A move of the environment's script (log 1): who acts next. -/
inductive Move where
  /-- The core has the turn: it takes its step if it has one (40_fetch_and_width.md R61). -/
  | core
  /-- The host issues a command (43_host_commands.md R87). -/
  | host (c : HostCmd)
  /-- The hardware reset input is active (70_reset_and_hazards.md R113). -/
  | hardReset
  deriving DecidableEq, Repr

/-- Why the machine stops with a fault. LZWD's own faults are states (`STATUS = FAULT`), not these: each of these is a state
in which no run from reset can be, and stopping there is SAFE (log 9). -/
inductive Fault where
  /-- Raised by KNOWN and NEXT: a dictionary slot is read that holds no value (93_implementation_defined.md U4). Safe. -/
  | unassignedEntry
  /-- Raised by KNOWN and NEXT: the slot `EOI`, invalid for lookup, is read (93_implementation_defined.md U3). Safe. -/
  | invalidEntry
  /-- Raised by KNOWN and NEXT: an empty sequence is read, whose first element is undefined (00_scope.md R8,
  93_implementation_defined.md U3). Safe. -/
  | emptyEntry
  /-- Raised by NEXT: `Grow` would be called with its precondition `DLEN < 4096` false (40_fetch_and_width.md R67). Safe. -/
  | dictionaryFull
  /-- Raised by CLR: `MINCS` is outside 2 .. 11, so the cleared dictionary does not fit `DICT` or `CW` (10_state.md R31 I1,
  60_exceptions.md R102). Safe. -/
  | clearCodeOutOfRange
  /-- Raised by the fetch: `CW` is outside 3 .. 12, for which `ReadBits` has no result (20_memory.md R38,
  93_implementation_defined.md U10). Safe. -/
  | widthOutOfRange
  deriving DecidableEq, Repr

/-- Why the model gives an operation no meaning. -/
inductive Refusal where
  /-- Raised by a dispatch arm whose operation has no meaning yet. Safe. -/
  | notModelled (mnemonic : String)
  /-- Raised by LOAD: a byte of the running payload would be written, after which the codes fetched are undefined
  (20_memory.md R48; 93_implementation_defined.md U6: `refuse`; log 6). Safe. -/
  | loadDuringRun
  deriving DecidableEq, Repr

/-- The state of one LZWD instance. -/
structure State where
  /-- `CW` (10_state.md R12). -/
  cw : BitVec 4
  /-- `DLEN` (10_state.md R13). -/
  dlen : BitVec 13
  /-- `PREV` (10_state.md R14). -/
  prev : BitVec 12
  /-- `BITPOS`, the program counter (10_state.md R15). -/
  bitpos : BitVec 35
  /-- `STATUS` (10_state.md R16). -/
  status : Status
  /-- `ERR` (10_state.md R17). -/
  err : ErrKind
  /-- `MINCS` (10_state.md R20). -/
  mincs : BitVec 8
  /-- `INLEN` (10_state.md R21). -/
  inlen : BitVec 32
  /-- `OUTLEN`, a natural number (10_state.md R23). -/
  outlen : Nat
  /-- `DICT` (10_state.md R26 to R29). -/
  dict : Dict
  /-- `IN` (20_memory.md R34). -/
  input : Memory
  /-- `OUT` (20_memory.md R43). -/
  out : List Symbol
  /-- The model's own: the environment's script, next move first (log 1). -/
  agenda : List Move
  /-- The model's own: what the host has received, oldest first (log 2). -/
  answers : List Answer
  /-- The model's own: how many free symbols DRAIN has drawn (log 5). -/
  draws : Nat
  /-- The model's own: which hardware reset `IN`'s unknown contents date from (log 3). -/
  epoch : Nat
  deriving DecidableEq, Repr

/-- What the next step has to do (Turn.lean finds it, Step.lean does it). -/
inductive Turn where
  /-- Execute `i` in the state `s`. -/
  | run (i : Instr) (s : State)
  /-- No operation is executed: the step ends in `s`. -/
  | settle (s : State)
  /-- The machine stops. -/
  | stop (f : Fault)
  deriving DecidableEq, Repr

/-- The machine right after hardware reset (10_state.md R32, 70_reset_and_hazards.md R114). The model's own fields start
empty (log 2). -/
def State.reset : State where
  cw := 0
  dlen := 0
  prev := 0
  bitpos := 0
  status := .idle
  err := .none
  mincs := 0
  inlen := 0
  outlen := 0
  dict := []
  input := []
  out := []
  agenda := []
  answers := []
  draws := 0
  epoch := 0

end Sys2Proof.Machine
end

