-- ==== Sys2Proof/Machine/Flags.lean ====
section
/-! DEFINITION. The bits that steer a later step (10_state.md R18) and the numbers of the two status registers. LZWD has no
condition codes; every comparison is of unsigned naturals. -/

namespace Sys2Proof.Machine

/-- The 2-bit value of `STATUS` (10_state.md R16). -/
def statusNumber : Status → BitVec 2
  | .idle => 0
  | .run => 1
  | .done => 2
  | .fault => 3

/-- The 2-bit value of `ERR` (10_state.md R17). -/
def errNumber : ErrKind → BitVec 2
  | .none => 0
  | .unexpectedEndOfStream => 1
  | .invalidLzwCode => 2
  | .invalidMinCodeSize => 3

/-- "The previous code was the clear code": `PREV == CLEAR` (10_state.md R14, R18). -/
def prevIsClear (s : State) : Bool := decide (s.prev.toNat = clearOf s.mincs)

/-- The dictionary is full: `DLEN < 4096` is false (42_data_codes.md R80). -/
def dictFull (s : State) : Bool := decide (Config.dictCap ≤ s.dlen.toNat)

/-- A run is in progress: the core has a step, and the configuration is frozen (40_fetch_and_width.md R61,
43_host_commands.md R91). -/
def running (s : State) : Bool := decide (s.status = .run)

/-- The width after a growth that made the dictionary `newDlen` long: one more when `newDlen == 1 << CW` and `CW < 12`
(40_fetch_and_width.md R67). -/
def grownCw (newDlen : Nat) (cw : BitVec 4) : BitVec 4 :=
  if newDlen = 2 ^ cw.toNat ∧ cw.toNat < Config.maxCw then BitVec.ofNat 4 (cw.toNat + 1) else cw

/-- The fetch bound is passed: `BITPOS + CW > 8 * INLEN`, on naturals (40_fetch_and_width.md R62, R66). -/
def pastEnd (s : State) : Bool := decide (8 * s.inlen.toNat < s.bitpos.toNat + s.cw.toNat)

end Sys2Proof.Machine
end

