-- ==== Sys2Proof/Machine/Operands.lean ====
section
/-! DEFINITION. How operands are read: the bits of a code out of `IN` (20_memory.md R36 to R38), an entry out of `DICT`
(10_state.md R28), a register by its number (10_state.md R19). Reading changes nothing. -/

namespace Sys2Proof.Machine

/-- Byte `a` of `IN`. A byte the host has not loaded since the hardware reset is a free value, the same at every read until
it is loaded (20_memory.md R40; log 3). -/
def byteAt (s : State) (a : Nat) : Byte :=
  (sparseGet s.input a).getD (Config.unloadedByte s.epoch a)

/-- `InBit(p) = (IN[p >> 3] >> (p & 7)) & 1` (20_memory.md R36). -/
def inBit (s : State) (p : Nat) : Bool := (byteAt s (p / 8)).getLsbD (p % 8)

/-- The `n` bits of `IN` from bit address `p`, in address order (20_memory.md R37). -/
def bitsAt (s : State) (p : Nat) : (n : Nat) → List Bool
  | 0 => []
  | n + 1 => inBit s p :: bitsAt s (p + 1) n

/-- `ReadBits(p, n)`, defined when `p + n <= 8 * INLEN` (20_memory.md R37, R38). -/
def readBits (s : State) (p n : Nat) : Option Nat :=
  if 8 * s.inlen.toNat < p + n then none else some (assemble (bitsAt s p n))

/-- The registers the next code is read against. -/
def codeCtx (s : State) : CodeCtx := { mincs := s.mincs, dlen := s.dlen, cw := s.cw }

/-- Slot `c` of `DICT` and its first symbol. A slot without a non-empty sequence is never read in a run (10_state.md R28), and
a read of one faults (93_implementation_defined.md U3, U4; log 9). -/
def lookup (s : State) (c : Nat) : Except Fault (Symbol × List Symbol) :=
  match sparseGet s.dict c with
  | none => .error .unassignedEntry
  | some .invalid => .error .invalidEntry
  | some (.seq []) => .error .emptyEntry
  | some (.seq (k :: r)) => .ok (k, k :: r)

/-- The value a read of register `n` returns, zero-extended (10_state.md R19). `CTRL` and numbers from 10 on read as 0. -/
def readReg (s : State) (n : Nat) : Nat :=
  if n = 1 then s.mincs.toNat
  else if n = 2 then s.inlen.toNat
  else if n = 3 then (statusNumber s.status).toNat
  else if n = 4 then (errNumber s.err).toNat
  else if n = 5 then s.outlen
  else if n = 6 then s.bitpos.toNat
  else if n = 7 then s.cw.toNat
  else if n = 8 then s.dlen.toNat
  else if n = 9 then s.prev.toNat
  else 0

end Sys2Proof.Machine
end

