-- ==== Sys2Proof/Machine/Ops.lean ====
section
/-! DEFINITION. The named operations on the state: the spec's primitives `Emit`, `Grow`, `Clear`, `raise` (00_scope.md R9),
the host's START and RST, and the hardware reset. -/

namespace Sys2Proof.Machine

/-- `raise F`, the one fault entry: `ERR` and `STATUS` are written and nothing else (60_exceptions.md R99). There is no
return from it (60_exceptions.md R105). -/
def raise (e : ErrKind) (s : State) : State := { s with err := e, status := .fault }

/-- `BITPOS <- BITPOS + CW`, after a successful fetch (40_fetch_and_width.md R62). -/
def advance (s : State) : State := { s with bitpos := BitVec.ofNat 35 (s.bitpos.toNat + s.cw.toNat) }

/-- `Emit(s)`: the symbols are appended in order and counted (20_memory.md R43). -/
def emit (l : List Symbol) (s : State) : State := { s with out := s.out ++ l, outlen := s.outlen + l.length }

/-- `Grow(s)`: slot `DLEN` is written, `DLEN` counts it, and `CW` follows (40_fetch_and_width.md R67). -/
def grow (l : List Symbol) (s : State) : State :=
  { s with
    dict := sparseSet s.dict s.dlen.toNat (.seq l)
    dlen := BitVec.ofNat 13 (s.dlen.toNat + 1)
    cw := grownCw (s.dlen.toNat + 1) s.cw }

/-- `PREV <- code` (40_fetch_and_width.md R64). -/
def setPrev (code : Code) (s : State) : State := { s with prev := code }

/-- The root entries `DICT[i] = <i>`, from slot `first`, `n` of them. -/
def rootEntries : (n first : Nat) → Dict
  | 0, _ => []
  | n + 1, first => (first, .seq [BitVec.ofNat 11 first]) :: rootEntries n (first + 1)

/-- The dictionary after `Clear()`: roots, `<>` in slot `CLEAR`, `invalid` in slot `EOI`, everything above unassigned
(41_control_codes.md R74). -/
def clearedDict (mincs : BitVec 8) : Dict :=
  rootEntries (clearOf mincs) 0 ++ [(clearOf mincs, .seq []), (eoiOf mincs, .invalid)]

/-- `Clear()`, for a legal `MINCS` (41_control_codes.md R74). It returns the width to `MINCS + 1` (92_eei_decisions.md D5,
log 12). -/
def clear (s : State) : State :=
  { s with
    dict := clearedDict s.mincs
    dlen := BitVec.ofNat 13 (initialDlen s.mincs)
    cw := BitVec.ofNat 4 (initialCw s.mincs)
    prev := BitVec.ofNat 12 (clearOf s.mincs) }

/-- `STATUS <- DONE` (41_control_codes.md R75). -/
def finish (s : State) : State := { s with status := .done }

/-- An accepted START: output and cursor emptied, then `Clear()`, then `RUN` (43_host_commands.md R90). -/
def beginRun (s : State) : State :=
  { clear { s with out := [], outlen := 0, bitpos := 0 } with err := .none, status := .run }

/-- `START()` (43_host_commands.md R90): ignored in `RUN`, refused with `InvalidMinCodeSize`, or accepted. -/
def startCommand (s : State) : State :=
  if running s then s
  else if mincsLegal s.mincs then beginRun s
  else raise .invalidMinCodeSize s

/-- `RST()`: the reset state, but `MINCS`, `INLEN` and `IN` are kept (43_host_commands.md R92). -/
def softReset (s : State) : State :=
  { s with
    status := .idle
    err := .none
    bitpos := 0
    cw := 0
    dlen := 0
    prev := 0
    out := []
    outlen := 0
    dict := [] }

/-- The hardware reset: as RST, and `MINCS` and `INLEN` are 0 and `IN` is unspecified again (70_reset_and_hazards.md R113;
log 4). -/
def hardwareReset (s : State) : State :=
  { softReset s with mincs := 0, inlen := 0, input := [], epoch := s.epoch + 1 }

/-- `MINCS <- v[7:0]`, unless a run is in progress (43_host_commands.md R88, R91). -/
def writeMincs (v : RegValue) (s : State) : State :=
  if running s then s else { s with mincs := v.setWidth 8 }

/-- `INLEN <- v[31:0]`, unless a run is in progress (43_host_commands.md R88, R91). -/
def writeInlen (v : RegValue) (s : State) : State :=
  if running s then s else { s with inlen := v.setWidth 32 }

/-- `WRREG(n, v)` (43_host_commands.md R88). -/
def writeReg (n : Nat) (v : RegValue) (s : State) : State :=
  if n = 0 then
    if v.getLsbD 1 then softReset s else if v.getLsbD 0 then startCommand s else s
  else if n = 1 then writeMincs v s
  else if n = 2 then writeInlen v s
  else s

/-- `IN[a] <- b` (43_host_commands.md R93). -/
def writeByte (a : BitVec 32) (b : Byte) (s : State) : State :=
  { s with input := sparseSet s.input a.toNat b }

/-- The host receives an answer. -/
def answer (x : Answer) (s : State) : State := { s with answers := s.answers ++ [x] }

/-- A free symbol is drawn, a fresh one each time (log 5). -/
def drawSymbol (s : State) : Symbol × State := (Config.drainBeyond s.draws, { s with draws := s.draws + 1 })

/-- The script moves on. -/
def setAgenda (l : List Move) (s : State) : State := { s with agenda := l }

/-- The value `w` of `nbits` bits made the host's next move, a write to `CTRL` (log 11). -/
def placeCtrlWrite (nbits w : Nat) (s : State) : State :=
  setAgenda (.host (.write 0 (BitVec.ofNat 64 (w % 2 ^ nbits))) :: s.agenda) s

end Sys2Proof.Machine
end

