-- ==== Sys2Proof/Machine/ControlCodes.lean ====
section
/-! DEFINITION. The control codes `CLR` and `EOI` (41_control_codes.md). Each is executed after the fetch has advanced
`BITPOS`. -/

namespace Sys2Proof.Machine

/-- `CLR` (41_control_codes.md R72). With an illegal `MINCS`, in which no run is, the cleared state does not exist (log 9). -/
def execClr (s : State) : Host.Outcome State Fault Refusal :=
  if mincsLegal s.mincs then .next (clear s) else .fault .clearCodeOutOfRange

/-- `EOI` (41_control_codes.md R75). -/
def execEoi (s : State) : Host.Outcome State Fault Refusal := .next (finish s)

end Sys2Proof.Machine
end

