-- ==== Sys2Proof/Machine/DataCodes.lean ====
section
/-! DEFINITION. The data codes `KNOWN`, `NEXT` and `BAD` (42_data_codes.md). Each is executed after the fetch has advanced
`BITPOS`. -/

namespace Sys2Proof.Machine

/-- `KNOWN` (42_data_codes.md R80): the entry is emitted; the previous entry and the first symbol of this one make a new
entry unless the previous code was the clear code or the dictionary is full. -/
def execKnown (code : Code) (s : State) : Host.Outcome State Fault Refusal :=
  match lookup s code.toNat with
  | .error f => .fault f
  | .ok (k, l) =>
      if prevIsClear s || dictFull s then .next (setPrev code (emit l s))
      else
        match lookup s s.prev.toNat with
        | .error f => .fault f
        | .ok (_, p) => .next (setPrev code (grow (p ++ [k]) (emit l s)))

/-- `NEXT` (42_data_codes.md R82): straight after a clear code it faults (92_eei_decisions.md D7); otherwise the previous
entry with its own first symbol is added and emitted. -/
def execNext (code : Code) (s : State) : Host.Outcome State Fault Refusal :=
  if prevIsClear s then .next (raise .invalidLzwCode s)
  else if dictFull s then .fault .dictionaryFull
  else
    match lookup s s.prev.toNat with
    | .error f => .fault f
    | .ok (k, p) => .next (setPrev code (emit (p ++ [k]) (grow (p ++ [k]) s)))

/-- `BAD` (42_data_codes.md R84). The offending code is kept nowhere: it stands at bits `BITPOS - CW .. BITPOS - 1` of `IN`
(60_exceptions.md R96). -/
def execBad (_code : Code) (s : State) : Host.Outcome State Fault Refusal := .next (raise .invalidLzwCode s)

end Sys2Proof.Machine
end

