-- ==== Sys2Proof/Machine/HostCommands.lean ====
section
/-! DEFINITION. The six host commands (43_host_commands.md). -/

namespace Sys2Proof.Machine

/-- `START` (43_host_commands.md R90). -/
def execStart (s : State) : Host.Outcome State Fault Refusal := .next (startCommand s)

/-- `RST` (43_host_commands.md R92). -/
def execRst (s : State) : Host.Outcome State Fault Refusal := .next (softReset s)

/-- `WRREG n, v` (43_host_commands.md R88). -/
def execWrreg (n : Nat) (v : RegValue) (s : State) : Host.Outcome State Fault Refusal := .next (writeReg n v s)

/-- `RDREG n` (43_host_commands.md R89). -/
def execRdreg (n : Nat) (s : State) : Host.Outcome State Fault Refusal := .next (answer (.reg (readReg s n)) s)

/-- `LOAD a, b` (43_host_commands.md R93). A write to the running payload has no defined outcome and is refused
(93_implementation_defined.md U6); bytes at `INLEN` and above may change freely (70_reset_and_hazards.md R117; log 6). -/
def execLoad (a : BitVec 32) (b : Byte) (s : State) : Host.Outcome State Fault Refusal :=
  if running s && decide (a.toNat < s.inlen.toNat) then .refused .loadDuringRun else .next (writeByte a b s)

/-- `DRAIN i` (43_host_commands.md R94). At or above `OUTLEN` the spec states no result: a free symbol is answered (log 5). -/
def execDrain (i : Nat) (s : State) : Host.Outcome State Fault Refusal :=
  match s.out[i]? with
  | some k => .next (answer (.sym k) s)
  | none => .next (answer (.sym (drawSymbol s).1) (drawSymbol s).2)

end Sys2Proof.Machine
end

