-- ==== Sys2Proof/Machine/Dispatch.lean ====
section
/-! DEFINITION. The dispatch: one arm per operation (30_encoding.md R53, 43_host_commands.md R87). -/

namespace Sys2Proof.Machine

def exec (i : Instr) (s : State) : Host.Outcome State Fault Refusal :=
  match i with
  | .clr => Sys2Proof.Machine.execClr s
  | .eoi => Sys2Proof.Machine.execEoi s
  | .known code => Sys2Proof.Machine.execKnown code s
  | .next code => Sys2Proof.Machine.execNext code s
  | .bad code => Sys2Proof.Machine.execBad code s
  | .start => Sys2Proof.Machine.execStart s
  | .rst => Sys2Proof.Machine.execRst s
  | .wrreg n v => Sys2Proof.Machine.execWrreg n v s
  | .rdreg n => Sys2Proof.Machine.execRdreg n s
  | .load a b => Sys2Proof.Machine.execLoad a b s
  | .drain k => Sys2Proof.Machine.execDrain k s

end Sys2Proof.Machine
end

