-- ==== Sys2Proof/Machine/Turn.lean ====
section
/-! DEFINITION. What the next step has to do: whose turn it is, and for the core the fetch (40_fetch_and_width.md R61, R62). -/

namespace Sys2Proof.Machine

/-- The fetch and the dispatch of the core's step (40_fetch_and_width.md R61 to R63). Past the payload's end nothing is read
and `BITPOS` stays; otherwise `BITPOS` moves by `CW` before the operation executes. -/
def fetchTurn (s : State) : Turn :=
  if pastEnd s then .settle (raise .unexpectedEndOfStream s)
  else
    match decodeBits (codeCtx s) (bitsAt s s.bitpos.toNat s.cw.toNat) with
    | .ok (i, _) => .run i (advance s)
    | .error .truncated => .settle (raise .unexpectedEndOfStream s)
    | .error .badWidth => .stop .widthOutOfRange

/-- The core's turn: it has a step exactly when `STATUS == RUN` (40_fetch_and_width.md R61); otherwise all state is retained
(60_exceptions.md R100, R112; log 7). -/
def coreTurn (s : State) : Turn := if running s then fetchTurn s else .settle s

/-- Whose turn it is (log 1). When the script is used up the core has the turn for ever, which is the weak fairness of
92_eei_decisions.md D23. -/
def nextTurn (s : State) : Turn :=
  match s.agenda with
  | [] => coreTurn s
  | .core :: rest => coreTurn (setAgenda rest s)
  | .host c :: rest => .run (decodeCmd c) (setAgenda rest s)
  | .hardReset :: rest => .settle (hardwareReset (setAgenda rest s))

end Sys2Proof.Machine
end

