-- ==== Sys2Proof/Machine/Step.lean ====
section
/-! DEFINITION. The step: the next turn, taken. -/

namespace Sys2Proof.Machine

/-- One step of the instance: a core step, a host command or a hardware reset, each atomic (40_fetch_and_width.md R61,
43_host_commands.md R87). -/
def step (s : State) : Host.Outcome State Fault Refusal :=
  match nextTurn s with
  | .run i t => exec i t
  | .settle t => .next t
  | .stop f => .fault f

/-- `s` with the operation of the table word `w` as its next move (log 11). -/
def State.withFetchWord (s : State) (nbits w : Nat) : State := placeCtrlWrite nbits w s

end Sys2Proof.Machine
end

