-- ==== Sys2Proof/Safety.lean ====
section
/-! DEFINITION. The invariants of 10_state.md R31 and what counts as a frame, in the terms claims use. -/

namespace Sys2Proof.Machine

/-- `bitlen(n)`, the number of bits needed to write `n` (00_scope.md R7). -/
def bitlen (n : Nat) : Nat := if n = 0 then 0 else Nat.log2 n + 1

/-- I1 to I4 of 10_state.md R31: the configuration, the dictionary length and the code width. -/
def WidthInv (s : State) : Prop :=
  mincsLegal s.mincs = true ∧ initialDlen s.mincs ≤ s.dlen.toNat ∧ s.dlen.toNat ≤ Config.dictCap
    ∧ initialCw s.mincs ≤ s.cw.toNat ∧ s.cw.toNat ≤ Config.maxCw
    ∧ s.cw.toNat = min Config.maxCw (bitlen s.dlen.toNat)
    ∧ (s.dlen.toNat < 2 ^ s.cw.toNat ∨ s.cw.toNat = Config.maxCw ∧ s.dlen.toNat = Config.dictCap)

/-- I5 of 10_state.md R31: the previous code is the clear code or names an entry. -/
def PrevInv (s : State) : Prop :=
  s.prev.toNat = clearOf s.mincs ∨ s.prev.toNat < s.dlen.toNat ∧ s.prev.toNat ≠ eoiOf s.mincs

/-- Every symbol is below `CLEAR` (10_state.md R27). -/
def SymbolsBelow (bound : Nat) (l : List Symbol) : Prop := ∀ k ∈ l, k.toNat < bound

/-- I6 of 10_state.md R31 and the table of R27: what every slot holds. -/
def DictInv (s : State) : Prop :=
  (∀ c, c < clearOf s.mincs → sparseGet s.dict c = some (.seq [BitVec.ofNat 11 c]))
    ∧ sparseGet s.dict (clearOf s.mincs) = some (.seq [])
    ∧ sparseGet s.dict (eoiOf s.mincs) = some .invalid
    ∧ (∀ c, initialDlen s.mincs ≤ c → c < s.dlen.toNat →
        ∃ l, sparseGet s.dict c = some (.seq l) ∧ 2 ≤ l.length ∧ l.length ≤ c - clearOf s.mincs
          ∧ SymbolsBelow (clearOf s.mincs) l)
    ∧ ∀ c, s.dlen.toNat ≤ c → sparseGet s.dict c = none

/-- I7 and I8 of 10_state.md R31: the cursor is inside the payload, and `OUT` holds symbols below `CLEAR`. -/
def StreamInv (s : State) : Prop :=
  s.bitpos.toNat ≤ 8 * s.inlen.toNat ∧ s.outlen = s.out.length ∧ SymbolsBelow (clearOf s.mincs) s.out

/-- I1 to I8 of 10_state.md R31. -/
def RunInv (s : State) : Prop := WidthInv s ∧ PrevInv s ∧ DictInv s ∧ StreamInv s

/-- What holds in every `STATUS`: both sparse memories are canonical, `OUTLEN == len(OUT)` (10_state.md R23), `ERR != 0`
exactly in `FAULT` (10_state.md R17); and in a run, I1 to I8. -/
def Inv (s : State) : Prop :=
  Memory.wf s.input ∧ Dict.wf s.dict ∧ s.outlen = s.out.length
    ∧ (s.err ≠ .none ↔ s.status = .fault) ∧ (s.status = .run → RunInv s)

/-- 10_state.md R30: every grown entry is an earlier entry, other than slots `CLEAR` and `EOI`, with one more symbol. -/
def PrefixInv (s : State) : Prop :=
  ∀ c, initialDlen s.mincs ≤ c → c < s.dlen.toNat →
    ∃ p k l, p < c ∧ p ≠ clearOf s.mincs ∧ p ≠ eoiOf s.mincs
      ∧ sparseGet s.dict p = some (.seq l) ∧ sparseGet s.dict c = some (.seq (l ++ [k]))

/-- The five operations a core step executes (30_encoding.md R53). -/
def isCode : Instr → Bool
  | .clr => true
  | .eoi => true
  | .known _ => true
  | .next _ => true
  | .bad _ => true
  | .start => false
  | .rst => false
  | .wrreg _ _ => false
  | .rdreg _ => false
  | .load _ _ => false
  | .drain _ => false

/-- The core has the turn, if it has a step: no host move stands before it. -/
def CoreTurn (s : State) : Prop := s.agenda = [] ∨ ∃ rest, s.agenda = .core :: rest

/-- Every byte of `IN` reads as before. -/
def SameBytes (s t : State) : Prop := ∀ a, byteAt t a = byteAt s a

/-- The state the host writes is unchanged (10_state.md R25): `MINCS`, `INLEN`, every byte of `IN`. -/
def HostSideSame (s t : State) : Prop := t.mincs = s.mincs ∧ t.inlen = s.inlen ∧ SameBytes s t

/-- The state the core writes is unchanged (10_state.md R25): `CW`, `DLEN`, `PREV`, `BITPOS`, `STATUS`, `ERR`, `OUTLEN`,
`DICT`, `OUT`. -/
def CoreSideSame (s t : State) : Prop :=
  t.cw = s.cw ∧ t.dlen = s.dlen ∧ t.prev = s.prev ∧ t.bitpos = s.bitpos ∧ t.status = s.status ∧ t.err = s.err
    ∧ t.outlen = s.outlen ∧ (∀ c, sparseGet t.dict c = sparseGet s.dict c) ∧ t.out = s.out

/-- The model's own fields are unchanged. -/
def ModelSideSame (s t : State) : Prop :=
  t.agenda = s.agenda ∧ t.answers = s.answers ∧ t.draws = s.draws ∧ t.epoch = s.epoch

/-- A successful run (60_exceptions.md R101, 70_reset_and_hazards.md R119): a claim about decoded output has it as premise. -/
def Successful (s : State) : Prop := s.status = .done

end Sys2Proof.Machine
end

