-- ==== Sys2Proof/Certificates/Slice0/Obligations.lean ====
section
/-! DEFINITION. The statements for the provers. Each cites the rules of spec/ it formalises; `log <n>` is a choice of the
model's own. -/

open Sys2Proof Sys2Proof.Machine

/-! ### whose turn it is, and the fetch -/

/-- 40_fetch_and_width.md R61 to R63: in a run, when the core has the turn and `CW` bits are left, the step is the execution
of the decoded code in the state whose `BITPOS` the fetch has advanced by the old `CW`. What the step adds around `exec` is
that advance and, where the script names the core, taking that move off it (log 1). -/
def Obligations.StepRunsTheFetchedCode : Prop :=
  ∀ (s : State) (i : Instr), s.status = .run → s.bitpos.toNat + s.cw.toNat ≤ 8 * s.inlen.toNat →
    decodeBits (codeCtx s) (bitsAt s s.bitpos.toNat s.cw.toNat) = .ok (i, []) →
      (s.agenda = [] → step s = exec i { s with bitpos := BitVec.ofNat 35 (s.bitpos.toNat + s.cw.toNat) })
        ∧ ∀ rest, s.agenda = .core :: rest →
            step s = exec i { s with bitpos := BitVec.ofNat 35 (s.bitpos.toNat + s.cw.toNat), agenda := rest }

/-- 43_host_commands.md R87: a host command is one atomic step, the execution of the command its transaction is read as;
what the step adds is taking the move off the script (log 1). -/
def Obligations.StepRunsTheHostCommand : Prop :=
  ∀ (s : State) (c : HostCmd) (rest : List Move), s.agenda = .host c :: rest →
    step s = exec (decodeCmd c) { s with agenda := rest }

/-- The model's placement of a table word (log 11): the very next step executes the operation the word is decoded to. -/
def Obligations.PlacedWordRunsNext : Prop :=
  ∀ (s : State) (nbits w : Nat) (i : Instr), decodeTableWord nbits w = some i →
    step (State.withFetchWord s nbits w) = exec i s

/-- 40_fetch_and_width.md R62, 60_exceptions.md R97, R99: with fewer than `CW` bits left the step writes `STATUS` and `ERR` and
nothing else of the machine's: no `BITPOS`, no code, no output (the script moves on, log 1). -/
def Obligations.FetchPastEndFaults : Prop :=
  ∀ s : State, s.status = .run → CoreTurn s → 8 * s.inlen.toNat < s.bitpos.toNat + s.cw.toNat →
    step s = .next { s with status := .fault, err := .unexpectedEndOfStream, agenda := s.agenda.tail }

/-- 40_fetch_and_width.md R61, 60_exceptions.md R100: outside `RUN` the core has no step: its turn changes nothing of the
machine's (that the turn then passes as a step without effect is the model's reading, log 7). -/
def Obligations.CoreIsStillOutsideRun : Prop :=
  ∀ s : State, s.status ≠ .run → CoreTurn s → step s = .next { s with agenda := s.agenda.tail }

/-- 60_exceptions.md R100: `DONE` and `FAULT` (and `IDLE`) are terminal: without a host move no register changes, for any
number of the model's steps (that such turns pass as steps without effect is log 7). -/
def Obligations.EndedRunStaysAsItIs : Prop :=
  ∀ (k : Nat) (s : State), s.status ≠ .run → (∀ m ∈ s.agenda, m = .core) →
    Host.Core.run Sys2Proof.core k s = .next { s with agenda := s.agenda.drop k }

/-- 70_reset_and_hazards.md R113: the hardware reset, as a move between steps (log 4), puts every register at its reset value;
every byte of `IN` is then a free value (log 3). -/
def Obligations.HardwareResetStep : Prop :=
  ∀ (s : State) (rest : List Move), s.agenda = .hardReset :: rest →
    ∃ t, step s = .next t ∧ t.status = .idle ∧ t.err = .none ∧ t.mincs = 0 ∧ t.inlen = 0 ∧ t.bitpos = 0 ∧ t.cw = 0 ∧ t.dlen = 0
      ∧ t.prev = 0 ∧ t.outlen = 0 ∧ t.out = [] ∧ (∀ c, sparseGet t.dict c = none)
      ∧ (∀ a, byteAt t a = Config.unloadedByte (s.epoch + 1) a)
      ∧ t.agenda = rest ∧ t.answers = s.answers ∧ t.draws = s.draws

/-! ### reset -/

/-- 70_reset_and_hazards.md R114: the state after hardware reset, and that a START in it faults because `MINCS = 0`. -/
def Obligations.ResetLeavesIdleZeros : Prop :=
  State.reset.status = .idle ∧ State.reset.err = .none ∧ State.reset.bitpos = 0 ∧ State.reset.cw = 0 ∧ State.reset.dlen = 0
    ∧ State.reset.prev = 0 ∧ State.reset.outlen = 0 ∧ State.reset.out = [] ∧ (∀ c, sparseGet State.reset.dict c = none)
    ∧ State.reset.mincs = 0 ∧ State.reset.inlen = 0
    ∧ exec .start State.reset = .next { State.reset with status := .fault, err := .invalidMinCodeSize }

/-- The invariant of every state (Safety.lean) holds after reset. -/
def Obligations.ResetMeetsTheInvariant : Prop := Inv State.reset

/-! ### invariants of every step -/

/-- Every step that answers a next state keeps the invariant: `IN` and `DICT` canonical, `OUTLEN == len(OUT)`, `ERR != 0`
exactly in `FAULT`, and in a run I1 to I8 of 10_state.md R31. -/
def Obligations.EveryStepKeepsTheInvariant : Prop :=
  ∀ s t : State, Inv s → step s = .next t → Inv t

/-- 10_state.md R31: I1 to I8 hold after every core step of a run, at the step that ends the run as well. -/
def Obligations.CoreStepKeepsRunInvariant : Prop :=
  ∀ s t : State, s.status = .run → RunInv s → CoreTurn s → step s = .next t → RunInv t

/-- No state that meets the invariant makes the machine stop, except that a host command which would overwrite the running
payload is refused (log 6). So no payload, however malformed, and no other host move has a case the model leaves out. -/
def Obligations.OnlyLoadIntoRunningPayloadStops : Prop :=
  ∀ s : State, Inv s →
    (∃ t, step s = .next t)
      ∨ step s = .refused .loadDuringRun ∧ s.status = .run
          ∧ ∃ a b rest, s.agenda = .host (.load a b) :: rest ∧ a.toNat < s.inlen.toNat

/-- 10_state.md R30: in a run every grown entry is an earlier entry with one more symbol, which is why prefix and suffix
can represent the dictionary. -/
def Obligations.GrownEntriesExtendEarlierOnes : Prop :=
  ∀ s t : State, Inv s → (s.status = .run → PrefixInv s) → step s = .next t → t.status = .run → PrefixInv t

/-- 40_fetch_and_width.md R65: every core step of a run moves `BITPOS` on by at least 3 or ends the run. -/
def Obligations.CoreStepMovesOnOrEnds : Prop :=
  ∀ s t : State, Inv s → s.status = .run → CoreTurn s → step s = .next t →
    t.status ≠ .run ∨ s.bitpos.toNat + 3 ≤ t.bitpos.toNat

/-- 40_fetch_and_width.md R65, 70_reset_and_hazards.md R121: left to itself, a run ends in `DONE` or `FAULT` within
`floor(8 * INLEN / 3) + 1` steps, on any payload. -/
def Obligations.EveryRunEnds : Prop :=
  ∀ s : State, Inv s → s.status = .run → s.agenda = [] →
    ∃ k t, k ≤ 8 * s.inlen.toNat / 3 + 1 ∧ Host.Core.run Sys2Proof.core k s = .next t ∧ (t.status = .done ∨ t.status = .fault)

/-! ### encoding -/

/-- 30_encoding.md R51 to R57: every well-formed operation, encoded, decodes to itself, and what follows a code's bits is left
for the next code. -/
def Obligations.EncodedOperationDecodes : Prop :=
  ∀ (c : CodeCtx) (i : Instr) (rest : List Bool), i.wellFormed c = true →
    match encode c i with
    | .code bits => decodeBits c (bits ++ rest) = .ok (i, rest)
    | .cmd t => decodeCmd t = i

/-- 30_encoding.md R53: every string of `CW` bits is the encoding of exactly the operation it decodes to, and that operation is
well-formed: no code value is without a meaning or has two. -/
def Obligations.DecodedCodeEncodesBack : Prop :=
  ∀ (c : CodeCtx) (bits : List Bool), c.legal = true → bits.length = c.cw.toNat →
    ∃ i, decodeBits c bits = .ok (i, []) ∧ i.wellFormed c = true ∧ encode c i = .code bits

/-- 30_encoding.md R53: the five classes as disjoint ranges of the code. -/
def Obligations.CodeClassesAreRanges : Prop :=
  ∀ (c : CodeCtx) (code : Code), c.legal = true →
    (classify c code = .clr ↔ code.toNat = 2 ^ c.mincs.toNat)
      ∧ (classify c code = .eoi ↔ code.toNat = 2 ^ c.mincs.toNat + 1)
      ∧ (classify c code = .known code ↔
          code.toNat < 2 ^ c.mincs.toNat ∨ 2 ^ c.mincs.toNat + 2 ≤ code.toNat ∧ code.toNat < c.dlen.toNat)
      ∧ (classify c code = .next code ↔ code.toNat = c.dlen.toNat)
      ∧ (classify c code = .bad code ↔ c.dlen.toNat < code.toNat)

/-- 30_encoding.md R54: with a full dictionary only `CLR`, `EOI` and `KNOWN` occur; with `DLEN` one below the code space `NEXT`
is the all-ones code and `BAD` does not occur. -/
def Obligations.FullCodeSpaceLeavesOutBad : Prop :=
  ∀ (c : CodeCtx) (code : Code), c.legal = true → code.toNat < 2 ^ c.cw.toNat →
    (c.dlen.toNat = 4096 → classify c code = .clr ∨ classify c code = .eoi ∨ classify c code = .known code)
      ∧ (c.dlen.toNat = 2 ^ c.cw.toNat - 1 →
          classify c code ≠ .bad code ∧ (classify c code = .next code ↔ code.toNat = 2 ^ c.cw.toNat - 1))

/-- A few words written out from the spec's encodings (30_encoding.md R57, R59; 95_test_vectors.md V2, V10). -/
def Obligations.SpelledWordsDecode : Prop :=
  decodeBytes ⟨2#8, 6#13, 3#4⟩ [0x44#8] = .ok (.clr, [false, false, false, true, false])
    ∧ decodeBits ⟨2#8, 9#13, 4#4⟩ [true, false, true, false] = .ok (.eoi, [])
    ∧ decodeBits ⟨2#8, 6#13, 3#4⟩ [true, false, false] = .ok (.known 1#12, [])
    ∧ decodeBits ⟨2#8, 6#13, 3#4⟩ [false, true, true] = .ok (.next 6#12, [])
    ∧ decodeBits ⟨2#8, 6#13, 3#4⟩ [true, true, true] = .ok (.bad 7#12, [])
    ∧ decodeCmd (.write 0 1#64) = .start ∧ decodeCmd (.write 0 2#64) = .rst ∧ decodeCmd (.write 0 3#64) = .rst

/-- 20_memory.md R36 to R38: `ReadBits(p, n)` is the sum of the bits `InBit(p + i) << i` when all of them are inside the
payload, and nothing otherwise. -/
def Obligations.ReadBitsIsTheSumOfItsBits : Prop :=
  ∀ (s : State) (p n : Nat),
    readBits s p n =
      if p + n ≤ 8 * s.inlen.toNat then
        some (∑ i ∈ Finset.range n, ((byteAt s ((p + i) / 8)).getLsbD ((p + i) % 8)).toNat <<< i)
      else none

/-- 20_memory.md R37, the equivalent formula over three bytes as one little-endian number, for `n <= 12`; bytes beyond the
payload count as 0. -/
def Obligations.ReadBitsFromThreeBytes : Prop :=
  ∀ (s : State) (p n : Nat), n ≤ 12 → p + n ≤ 8 * s.inlen.toNat →
    let byte := fun a => if a < s.inlen.toNat then (byteAt s a).toNat else 0
    let w := byte (p / 8) + 256 * byte (p / 8 + 1) + 65536 * byte (p / 8 + 2)
    readBits s p n = some ((w >>> (p % 8)) &&& ((1 <<< n) - 1))

/-- 30_encoding.md R59: bits packed into bytes come back in order, followed by the zero padding of the last byte. -/
def Obligations.PackedBitsReadBack : Prop :=
  ∀ bits : List Bool,
    (packBits bits).length = (bits.length + 7) / 8
      ∧ bitsOfBytes (packBits bits) = bits ++ List.replicate (8 * ((bits.length + 7) / 8) - bits.length) false

/-! ### control codes -/

/-- 41_control_codes.md R72, R74: `CLR` completes for every legal `MINCS`: the whole dictionary, `DLEN`, `CW`, `PREV`; it emits
nothing and leaves everything else, `BITPOS` being the fetch's. -/
def Obligations.ClrClears : Prop :=
  ∀ s : State, 2 ≤ s.mincs.toNat → s.mincs.toNat ≤ 11 →
    ∃ t, exec .clr s = .next t
      ∧ (∀ c, sparseGet t.dict c =
          if c < 2 ^ s.mincs.toNat then some (.seq [BitVec.ofNat 11 c])
          else if c = 2 ^ s.mincs.toNat then some (.seq [])
          else if c = 2 ^ s.mincs.toNat + 1 then some .invalid
          else none)
      ∧ t.dlen.toNat = 2 ^ s.mincs.toNat + 2 ∧ t.cw.toNat = s.mincs.toNat + 1 ∧ t.prev.toNat = 2 ^ s.mincs.toNat
      ∧ t.out = s.out ∧ t.outlen = s.outlen ∧ t.status = s.status ∧ t.err = s.err ∧ t.bitpos = s.bitpos
      ∧ HostSideSame s t ∧ ModelSideSame s t

/-- 41_control_codes.md R73 (a), (b): a `CLR` straight after an accepted START, or straight after a `CLR`, changes nothing (the
fetch's advance of `BITPOS` aside). -/
def Obligations.RepeatedClrChangesNothing : Prop :=
  ∀ s t : State,
    (exec .clr s = .next t → exec .clr t = .next t)
      ∧ (s.status ≠ .run → 2 ≤ s.mincs.toNat → s.mincs.toNat ≤ 11 → exec .start s = .next t → exec .clr t = .next t)

/-- 41_control_codes.md R75: `EOI` writes `STATUS <- DONE` and nothing else, in every state. -/
def Obligations.EoiEndsTheRun : Prop :=
  ∀ s : State, exec .eoi s = .next { s with status := .done }

/-! ### data codes -/

/-- 42_data_codes.md R80, R81 (a), (b): `KNOWN` after a clear code, or with a full dictionary, emits the entry and remembers the
code; nothing else changes. -/
def Obligations.KnownEmitsWithoutGrowth : Prop :=
  ∀ (s : State) (code : Code) (l : List Symbol), sparseGet s.dict code.toNat = some (.seq l) → l ≠ [] →
    (s.prev.toNat = 2 ^ s.mincs.toNat ∨ 4096 ≤ s.dlen.toNat) →
      exec (.known code) s = .next { s with out := s.out ++ l, outlen := s.outlen + l.length, prev := code }

/-- 42_data_codes.md R80, 40_fetch_and_width.md R67: `KNOWN` after another code, with room in the dictionary, emits the entry,
adds the previous entry with the first symbol of this one in slot `DLEN`, counts it, widens `CW` when the new `DLEN` is
`1 << CW` and `CW < 12`, and remembers the code; nothing else changes. -/
def Obligations.KnownEmitsAndGrows : Prop :=
  ∀ (s : State) (code : Code) (k : Symbol) (l p : List Symbol), sparseGet s.dict code.toNat = some (.seq (k :: l)) →
    s.prev.toNat ≠ 2 ^ s.mincs.toNat → s.dlen.toNat < 4096 → sparseGet s.dict s.prev.toNat = some (.seq p) → p ≠ [] →
      ∃ t, exec (.known code) s = .next t
        ∧ t.out = s.out ++ k :: l ∧ t.outlen = s.outlen + (l.length + 1) ∧ t.prev = code
        ∧ (∀ c, sparseGet t.dict c = if c = s.dlen.toNat then some (.seq (p ++ [k])) else sparseGet s.dict c)
        ∧ t.dlen.toNat = s.dlen.toNat + 1
        ∧ t.cw.toNat = (if s.dlen.toNat + 1 = 2 ^ s.cw.toNat ∧ s.cw.toNat < 12 then s.cw.toNat + 1 else s.cw.toNat)
        ∧ t.status = s.status ∧ t.err = s.err ∧ t.bitpos = s.bitpos ∧ HostSideSame s t ∧ ModelSideSame s t

/-- 42_data_codes.md R82, 40_fetch_and_width.md R67: `NEXT` after a data code adds the previous entry with its own first symbol
in slot `DLEN` and emits it; `DLEN`, `CW` and `PREV` as for `KNOWN`; nothing else changes. -/
def Obligations.NextAddsAndEmits : Prop :=
  ∀ (s : State) (code : Code) (k : Symbol) (l : List Symbol), s.prev.toNat ≠ 2 ^ s.mincs.toNat → s.dlen.toNat < 4096 →
    sparseGet s.dict s.prev.toNat = some (.seq (k :: l)) →
      ∃ t, exec (.next code) s = .next t
        ∧ t.out = s.out ++ (k :: l ++ [k]) ∧ t.outlen = s.outlen + (l.length + 2) ∧ t.prev = code
        ∧ (∀ c, sparseGet t.dict c = if c = s.dlen.toNat then some (.seq (k :: l ++ [k])) else sparseGet s.dict c)
        ∧ t.dlen.toNat = s.dlen.toNat + 1
        ∧ t.cw.toNat = (if s.dlen.toNat + 1 = 2 ^ s.cw.toNat ∧ s.cw.toNat < 12 then s.cw.toNat + 1 else s.cw.toNat)
        ∧ t.status = s.status ∧ t.err = s.err ∧ t.bitpos = s.bitpos ∧ HostSideSame s t ∧ ModelSideSame s t

/-- 42_data_codes.md R82, 60_exceptions.md R98, R99: `NEXT` straight after a clear code, or as the first code, is the fault
`InvalidLZWCode`; nothing is emitted or added. -/
def Obligations.NextAfterClearFaults : Prop :=
  ∀ (s : State) (code : Code), s.prev.toNat = 2 ^ s.mincs.toNat →
    exec (.next code) s = .next { s with status := .fault, err := .invalidLzwCode }

/-- 42_data_codes.md R84: `BAD` writes `STATUS <- FAULT`, `ERR <- 2` and nothing else, in every state. -/
def Obligations.BadFaults : Prop :=
  ∀ (s : State) (code : Code), exec (.bad code) s = .next { s with status := .fault, err := .invalidLzwCode }
    ∧ errNumber .invalidLzwCode = 2

/-- 10_state.md R28: in a run no data code reads a slot without a sequence: `KNOWN` and `NEXT` complete on every code of their
class. -/
def Obligations.DataCodesCompleteInARun : Prop :=
  ∀ (s : State) (code : Code), RunInv s →
    (code.toNat < s.dlen.toNat → code.toNat ≠ clearOf s.mincs → code.toNat ≠ eoiOf s.mincs →
        ∃ t, exec (.known code) s = .next t)
      ∧ (code.toNat = s.dlen.toNat → ∃ t, exec (.next code) s = .next t)

/-- 42_data_codes.md R85: a data code that does not fault adds exactly one entry when the previous code is not the clear code
and the dictionary is not full, and none otherwise. -/
def Obligations.DataCodeAddsAtMostOneEntry : Prop :=
  ∀ (s t : State) (i : Instr) (code : Code), i = .known code ∨ i = .next code → exec i s = .next t → s.status = .run →
    t.status = .run → s.dlen.toNat ≤ 4096 →
      t.dlen.toNat =
        if s.prev.toNat ≠ 2 ^ s.mincs.toNat ∧ s.dlen.toNat < 4096 then s.dlen.toNat + 1 else s.dlen.toNat

/-- 42_data_codes.md R83 (d): what `NEXT` emits has length at least 2, and its first and last symbols are equal. -/
def Obligations.NextEmitsEqualEnds : Prop :=
  ∀ (s t : State) (code : Code), exec (.next code) s = .next t → s.prev.toNat ≠ 2 ^ s.mincs.toNat →
    ∃ k l, t.out = s.out ++ (k :: l ++ [k])

/-! ### width -/

/-- 40_fetch_and_width.md R67: a code other than `CLR` leaves `CW` as it is or adds one, and adds one only when the dictionary
has grown to `1 << CW` with `CW < 12`. -/
def Obligations.WidthGrowsByAtMostOne : Prop :=
  ∀ (s t : State) (i : Instr), isCode i = true → i ≠ .clr → exec i s = .next t →
    t.cw = s.cw ∨ t.cw.toNat = s.cw.toNat + 1 ∧ t.dlen ≠ s.dlen ∧ t.dlen.toNat = 2 ^ s.cw.toNat ∧ s.cw.toNat < 12

/-- 40_fetch_and_width.md R68: in the step whose growth makes `DLEN == 1 << w`, `CW` becomes `w + 1`, for `w` up to 11; at 4096
it stays 12. -/
def Obligations.WidthThresholds : Prop :=
  ∀ (s t : State) (i : Instr) (w : Nat), isCode i = true → i ≠ .clr → WidthInv s → exec i s = .next t → t.dlen ≠ s.dlen →
    t.dlen.toNat = 2 ^ w → t.cw.toNat = min 12 (w + 1)

/-! ### faults -/

/-- 60_exceptions.md R99: an operation that faults writes `ERR` and `STATUS` and nothing else; 60_exceptions.md R104: it is
`NEXT` or `BAD`. -/
def Obligations.FaultingCodeChangesNothingElse : Prop :=
  ∀ (s t : State) (i : Instr), isCode i = true → s.status = .run → exec i s = .next t → t.status = .fault →
    t = { s with status := .fault, err := .invalidLzwCode } ∧ ∃ code, i = .next code ∨ i = .bad code

/-- 60_exceptions.md R104: `CLR`, `EOI` and `KNOWN` cannot fault. -/
def Obligations.ClrEoiKnownNeverFault : Prop :=
  ∀ (s t : State) (i : Instr), i = .clr ∨ i = .eoi ∨ (∃ code, i = .known code) → exec i s = .next t →
    t.err = s.err ∧ (s.status ≠ .fault → t.status ≠ .fault)

/-! ### frames of the two agents -/

/-- 10_state.md R25: what a code writes is the core's: no host register and no byte of `IN` changes; and `BITPOS` is the
fetch's alone. -/
def Obligations.CodesLeaveTheHostSide : Prop :=
  ∀ (s t : State) (i : Instr), isCode i = true → exec i s = .next t →
    HostSideSame s t ∧ ModelSideSame s t ∧ t.bitpos = s.bitpos

/-- 10_state.md R24, R25: `RDREG`, `DRAIN` and `LOAD` leave everything the core writes, and `MINCS` and `INLEN`. -/
def Obligations.ReadsAndLoadsLeaveTheCoreSide : Prop :=
  ∀ (s t : State) (i : Instr), (∃ n, i = .rdreg n) ∨ (∃ n, i = .drain n) ∨ (∃ a b, i = .load a b) → exec i s = .next t →
    CoreSideSame s t ∧ t.mincs = s.mincs ∧ t.inlen = s.inlen ∧ t.agenda = s.agenda
      ∧ ((∀ a b, i ≠ .load a b) → SameBytes s t)

/-- 20_memory.md R43: a code only appends to `OUT`, and `OUTLEN` counts what it appends; a code other than `KNOWN` and `NEXT`
appends nothing. -/
def Obligations.CodesOnlyAppendOutput : Prop :=
  ∀ (s t : State) (i : Instr), isCode i = true → exec i s = .next t →
    ∃ l, t.out = s.out ++ l ∧ t.outlen = s.outlen + l.length ∧ ((∀ code, i ≠ .known code ∧ i ≠ .next code) → l = [])

/-- 43_host_commands.md R94: a symbol once emitted never changes during the run: every step leaves it, whatever the host does,
unless the step is a write to `CTRL` or a hardware reset. -/
def Obligations.EmittedSymbolStays : Prop :=
  ∀ (s t : State) (i : Nat), i < s.out.length → step s = .next t →
    (∀ v rest, s.agenda ≠ .host (.write 0 v) :: rest) → (∀ rest, s.agenda ≠ .hardReset :: rest) → t.out[i]? = s.out[i]?

/-- 43_host_commands.md R91, 70_reset_and_hazards.md R117: during a run the configuration and the payload are frozen: no step
but a hardware reset changes `MINCS`, `INLEN` or a byte of `IN[0 .. INLEN-1]` (that a `LOAD` there stops the model is log 6). -/
def Obligations.RunFreezesConfiguration : Prop :=
  ∀ s t : State, s.status = .run → step s = .next t → (∀ rest, s.agenda ≠ .hardReset :: rest) →
    t.mincs = s.mincs ∧ t.inlen = s.inlen ∧ ∀ a, a < s.inlen.toNat → byteAt t a = byteAt s a

/-- 20_memory.md R34: bytes at `INLEN` and above are never read by the core: with any other bytes there, a core step of a run does the same. -/
def Obligations.BytesBeyondPayloadAreUnseen : Prop :=
  ∀ (s : State) (m : Memory), s.status = .run → CoreTurn s →
    (∀ a, a < s.inlen.toNat → sparseGet m a = sparseGet s.input a) →
      step { s with input := m } =
        match step s with
        | .next t => .next { t with input := m }
        | .fault f => .fault f
        | .refused r => .refused r

/-! ### who starts and who ends a run -/

/-- 10_state.md R16, 43_host_commands.md R90: only a START with a legal `MINCS` enters `RUN`. -/
def Obligations.OnlyStartEntersRun : Prop :=
  ∀ s t : State, s.status ≠ .run → step s = .next t → t.status = .run →
    2 ≤ s.mincs.toNat ∧ s.mincs.toNat ≤ 11
      ∧ ∃ v rest, s.agenda = .host (.write 0 v) :: rest ∧ v.getLsbD 1 = false ∧ v.getLsbD 0 = true

/-- 10_state.md R16, 41_control_codes.md R75: only an `EOI` code in a run enters `DONE`. -/
def Obligations.OnlyEoiEntersDone : Prop :=
  ∀ s t : State, s.status ≠ .done → step s = .next t → t.status = .done →
    s.status = .run ∧ CoreTurn s ∧ readBits s s.bitpos.toNat s.cw.toNat = some (2 ^ s.mincs.toNat + 1)

/-- 60_exceptions.md R100: `DONE` and `FAULT` are left by a START, an RST or a hardware reset only. -/
def Obligations.OnlyCommandsLeaveDoneAndFault : Prop :=
  ∀ s t : State, s.status = .done ∨ s.status = .fault → step s = .next t → t.status ≠ s.status →
    (∃ v rest, s.agenda = .host (.write 0 v) :: rest ∧ (v.getLsbD 0 = true ∨ v.getLsbD 1 = true))
      ∨ ∃ rest, s.agenda = .hardReset :: rest

/-! ### host commands -/

/-- 43_host_commands.md R90: an accepted START empties the output, sets the cursor to 0, clears, and runs; `MINCS`, `INLEN` and
`IN` are as before. -/
def Obligations.StartBeginsARun : Prop :=
  ∀ s : State, s.status ≠ .run → 2 ≤ s.mincs.toNat → s.mincs.toNat ≤ 11 →
    ∃ t, exec .start s = .next t ∧ t.status = .run ∧ t.err = .none ∧ t.out = [] ∧ t.outlen = 0 ∧ t.bitpos = 0
      ∧ (∀ c, sparseGet t.dict c =
          if c < 2 ^ s.mincs.toNat then some (.seq [BitVec.ofNat 11 c])
          else if c = 2 ^ s.mincs.toNat then some (.seq [])
          else if c = 2 ^ s.mincs.toNat + 1 then some .invalid
          else none)
      ∧ t.dlen.toNat = 2 ^ s.mincs.toNat + 2 ∧ t.cw.toNat = s.mincs.toNat + 1 ∧ t.prev.toNat = 2 ^ s.mincs.toNat
      ∧ HostSideSame s t ∧ ModelSideSame s t

/-- 60_exceptions.md R102: START with `MINCS` outside 2 .. 11 sets `STATUS <- FAULT`, `ERR <- 3` and nothing else. -/
def Obligations.StartRefusesIllegalMincs : Prop :=
  ∀ s : State, s.status ≠ .run → (s.mincs.toNat < 2 ∨ 11 < s.mincs.toNat) →
    exec .start s = .next { s with status := .fault, err := .invalidMinCodeSize } ∧ errNumber .invalidMinCodeSize = 3

/-- 43_host_commands.md R91: START during a run is ignored. -/
def Obligations.StartIsIgnoredDuringRun : Prop :=
  ∀ s : State, s.status = .run → exec .start s = .next s

/-- 70_reset_and_hazards.md R115: an accepted START leaves nothing of an earlier run: two states with the same `MINCS`, `INLEN`,
`IN` (and the model's own fields) are the same after it. -/
def Obligations.StartForgetsTheEarlierRun : Prop :=
  ∀ s r : State, s.status ≠ .run → r.status ≠ .run → 2 ≤ s.mincs.toNat → s.mincs.toNat ≤ 11 → r.mincs = s.mincs →
    r.inlen = s.inlen → r.input = s.input → ModelSideSame s r →
      ∃ t, exec .start s = .next t ∧ exec .start r = .next t ∧ t.status = .run

/-- 43_host_commands.md R92: RST, in every `STATUS`: `IDLE`, zeros, empty output, every slot unassigned; `MINCS`, `INLEN` and `IN`
are kept. -/
def Obligations.RstResets : Prop :=
  ∀ s : State, ∃ t, exec .rst s = .next t ∧ t.status = .idle ∧ t.err = .none ∧ t.bitpos = 0 ∧ t.cw = 0 ∧ t.dlen = 0 ∧ t.prev = 0
    ∧ t.out = [] ∧ t.outlen = 0 ∧ (∀ c, sparseGet t.dict c = none) ∧ HostSideSame s t ∧ ModelSideSame s t

/-- 43_host_commands.md R88, R91: a write to `MINCS` or `INLEN` outside `RUN` stores the low bits and changes nothing else; during
a run it is ignored; a write to any register from 3 on is ignored. -/
def Obligations.WrregWritesConfiguration : Prop :=
  ∀ (s : State) (v : RegValue),
    (s.status ≠ .run → exec (.wrreg 1 v) s = .next { s with mincs := v.extractLsb' 0 8 }
        ∧ exec (.wrreg 2 v) s = .next { s with inlen := v.extractLsb' 0 32 })
      ∧ (s.status = .run → exec (.wrreg 1 v) s = .next s ∧ exec (.wrreg 2 v) s = .next s)
      ∧ ∀ n, 3 ≤ n → exec (.wrreg n v) s = .next s

/-- 30_encoding.md R57, 43_host_commands.md R88: a write to `CTRL` with bit 1 set is RST, with bit 0 alone START, with neither
nothing. -/
def Obligations.WrregCtrlIsACommand : Prop :=
  ∀ (s : State) (v : RegValue), ∃ t, exec (.wrreg 0 v) s = .next t
    ∧ (v.getLsbD 1 = true → exec .rst s = .next t)
    ∧ (v.getLsbD 1 = false → v.getLsbD 0 = true → exec .start s = .next t)
    ∧ (v.getLsbD 1 = false → v.getLsbD 0 = false → t = s)

/-- 43_host_commands.md R89, 10_state.md R19: `RDREG n` answers the register's value, 0 for `CTRL` and for numbers from 10 on, in
every `STATUS`, and has no side effect (the answer is kept in the model's own list, log 2). -/
def Obligations.RdregAnswersTheRegister : Prop :=
  ∀ (s : State) (n : Nat), ∃ v, exec (.rdreg n) s = .next { s with answers := s.answers ++ [.reg v] }
    ∧ (n = 0 → v = 0) ∧ (n = 1 → v = s.mincs.toNat) ∧ (n = 2 → v = s.inlen.toNat)
    ∧ (n = 3 → v = (match s.status with | .idle => 0 | .run => 1 | .done => 2 | .fault => 3))
    ∧ (n = 4 → v = (match s.err with
        | .none => 0 | .unexpectedEndOfStream => 1 | .invalidLzwCode => 2 | .invalidMinCodeSize => 3))
    ∧ (n = 5 → v = s.outlen) ∧ (n = 6 → v = s.bitpos.toNat) ∧ (n = 7 → v = s.cw.toNat) ∧ (n = 8 → v = s.dlen.toNat)
    ∧ (n = 9 → v = s.prev.toNat) ∧ (10 ≤ n → v = 0)

/-- 43_host_commands.md R93: `LOAD a, b` outside a run writes byte `a` of `IN` and no other byte, and nothing else. -/
def Obligations.LoadWritesOneByte : Prop :=
  ∀ (s : State) (a : BitVec 32) (b : Byte), s.status ≠ .run →
    ∃ t, exec (.load a b) s = .next t ∧ byteAt t a.toNat = b ∧ (∀ c, c ≠ a.toNat → byteAt t c = byteAt s c)
      ∧ CoreSideSame s t ∧ t.mincs = s.mincs ∧ t.inlen = s.inlen ∧ ModelSideSame s t

/-- 70_reset_and_hazards.md R117, 93_implementation_defined.md U6, as the model reads them (log 6): during a run a `LOAD` into the
payload is refused, and a `LOAD` above it writes its byte and nothing else. -/
def Obligations.LoadDuringARun : Prop :=
  ∀ (s : State) (a : BitVec 32) (b : Byte), s.status = .run →
    (a.toNat < s.inlen.toNat → exec (.load a b) s = .refused .loadDuringRun)
      ∧ (s.inlen.toNat ≤ a.toNat → ∃ t, exec (.load a b) s = .next t ∧ byteAt t a.toNat = b
          ∧ (∀ c, c ≠ a.toNat → byteAt t c = byteAt s c)
          ∧ CoreSideSame s t ∧ t.mincs = s.mincs ∧ t.inlen = s.inlen ∧ ModelSideSame s t)

/-- 43_host_commands.md R94: `DRAIN i` for `i < OUTLEN` answers `OUT[i]`, consumes nothing and changes nothing (the answer is kept
in the model's own list, log 2). -/
def Obligations.DrainAnswersTheSymbol : Prop :=
  ∀ (s : State) (i : Nat), s.outlen = s.out.length → i < s.outlen →
    ∃ k, s.out[i]? = some k ∧ exec (.drain i) s = .next { s with answers := s.answers ++ [.sym k] }

/-- The model's reading of a DRAIN at or above `OUTLEN`, for which the spec states no result (log 5): it completes, answers some
symbol that nothing constrains, and changes nothing else of the machine's. -/
def Obligations.DrainBeyondOutputCompletes : Prop :=
  ∀ (s : State) (i : Nat), s.outlen = s.out.length → s.outlen ≤ i →
    ∃ t k, exec (.drain i) s = .next t ∧ t.answers = s.answers ++ [.sym k] ∧ CoreSideSame s t ∧ HostSideSame s t
      ∧ t.agenda = s.agenda

/-! ### where the model stops -/

/-- The model's stops in states no run reaches (log 9): a read of a slot without a usable sequence, `NEXT` with a full
dictionary, `CLR` with an illegal `MINCS`. -/
def Obligations.MeaninglessStatesStop : Prop :=
  ∀ (s : State) (code : Code),
    (sparseGet s.dict code.toNat = none → exec (.known code) s = .fault .unassignedEntry)
      ∧ (sparseGet s.dict code.toNat = some .invalid → exec (.known code) s = .fault .invalidEntry)
      ∧ (sparseGet s.dict code.toNat = some (.seq []) → exec (.known code) s = .fault .emptyEntry)
      ∧ (s.prev.toNat ≠ 2 ^ s.mincs.toNat → 4096 ≤ s.dlen.toNat → exec (.next code) s = .fault .dictionaryFull)
      ∧ (s.mincs.toNat < 2 ∨ 11 < s.mincs.toNat → exec .clr s = .fault .clearCodeOutOfRange)
end

