-- ==== Sys2Proof/Laws/Sparse.lean ====
section
/-! SUPPORT. The laws of sparse data: a read after a write, and every write keeps the canonical form. -/

namespace Sys2Proof.Machine

variable {β : Type}

@[simp] theorem sparseGet_nil (a : Nat) : sparseGet ([] : List (Nat × β)) a = none := rfl

theorem sparseGet_cons (k : Nat) (v : β) (r : List (Nat × β)) (a : Nat) :
    sparseGet ((k, v) :: r) a = if k = a then some v else sparseGet r a := rfl

@[simp] theorem sparseGet_set_same (m : List (Nat × β)) (a : Nat) (v : β) : sparseGet (sparseSet m a v) a = some v := by
  induction m with
  | nil => simp [sparseSet, sparseGet]
  | cons x r ih =>
    obtain ⟨k, w⟩ := x
    simp only [sparseSet]
    split
    · simp [sparseGet]
    · split
      · simp [sparseGet]
      · rename_i h
        simp [sparseGet, Ne.symm h, ih]

theorem sparseGet_set_other (m : List (Nat × β)) {a c : Nat} (v : β) (h : c ≠ a) :
    sparseGet (sparseSet m a v) c = sparseGet m c := by
  induction m with
  | nil => simp [sparseSet, sparseGet, Ne.symm h]
  | cons x r ih =>
    obtain ⟨k, w⟩ := x
    simp only [sparseSet]
    split
    · simp [sparseGet, Ne.symm h]
    · split
      · rename_i hk
        simp [sparseGet, ← hk, Ne.symm h]
      · simp [sparseGet, ih]

theorem sparseGet_append (m n : List (Nat × β)) (c : Nat) :
    sparseGet (m ++ n) c = (sparseGet m c).orElse fun _ => sparseGet n c := by
  induction m with
  | nil => rfl
  | cons x r ih =>
    obtain ⟨k, w⟩ := x
    simp only [List.cons_append, sparseGet_cons, ih]
    split <;> rfl

theorem mem_sparseSet {m : List (Nat × β)} {a : Nat} {v : β} {x : Nat × β} (h : x ∈ sparseSet m a v) :
    x = (a, v) ∨ x ∈ m := by
  induction m with
  | nil => simpa [sparseSet] using h
  | cons y r ih =>
    obtain ⟨k, w⟩ := y
    simp only [sparseSet] at h
    split at h
    · simpa using h
    · split at h <;> simp only [List.mem_cons] at h ⊢
      · tauto
      · rcases h with h | h
        · tauto
        · rcases ih h with h | h <;> tauto

/-- A write below the bound keeps the canonical form. -/
theorem sparseSet_wf {bound : Nat} {m : List (Nat × β)} (h : sparseWf bound m) {a : Nat} (ha : a < bound) (v : β) :
    sparseWf bound (sparseSet m a v) := by
  refine ⟨?_, fun x hx => ?_⟩
  · obtain ⟨hp, -⟩ := h
    induction m with
    | nil => simp [sparseSet]
    | cons y r ih =>
      obtain ⟨k, w⟩ := y
      obtain ⟨hk, hr⟩ := List.pairwise_cons.mp hp
      simp only [sparseSet]
      split
      · rename_i hlt
        refine List.pairwise_cons.mpr ⟨fun z hz => ?_, hp⟩
        rcases List.mem_cons.mp hz with rfl | hz
        · exact hlt
        · exact lt_trans hlt (hk z hz)
      · split
        · rename_i heq
          subst heq
          exact List.pairwise_cons.mpr ⟨hk, hr⟩
        · refine List.pairwise_cons.mpr ⟨fun z hz => ?_, ih hr⟩
          rcases mem_sparseSet hz with rfl | hz
          · dsimp only
            omega
          · exact hk z hz
  · rcases mem_sparseSet hx with rfl | hx
    · exact ha
    · exact h.2 x hx

theorem sparseWf_nil (bound : Nat) : sparseWf bound ([] : List (Nat × β)) :=
  ⟨List.Pairwise.nil, by simp⟩

/-- In the canonical form a listed entry is what its key holds. -/
theorem sparseGet_eq_some_iff {bound : Nat} {m : List (Nat × β)} (h : sparseWf bound m) {a : Nat} {v : β} :
    sparseGet m a = some v ↔ (a, v) ∈ m := by
  obtain ⟨hp, -⟩ := h
  induction m with
  | nil => simp
  | cons y r ih =>
    obtain ⟨k, w⟩ := y
    obtain ⟨hk, hr⟩ := List.pairwise_cons.mp hp
    simp only [sparseGet_cons, List.mem_cons, Prod.mk.injEq]
    split
    · rename_i he
      subst he
      constructor
      · intro he
        exact .inl ⟨rfl, by simpa using he.symm⟩
      · rintro (⟨-, rfl⟩ | hm)
        · rfl
        · exact absurd (hk _ hm) (lt_irrefl _)
    · rename_i hne
      rw [ih hr]
      constructor
      · exact .inr
      · rintro (⟨rfl, -⟩ | hm)
        · exact absurd rfl hne
        · exact hm

end Sys2Proof.Machine
end

