-- ==== Sys2Proof/Laws/State.lean ====
section
/-! SUPPORT. One lemma per field per named operation of Machine/Ops.lean, each true by unfolding the operation once, so that
no later proof unfolds a record update. -/

namespace Sys2Proof.Machine

variable (s : State)

/-! ### raise -/

@[simp] theorem raise_cw (e : ErrKind) : (raise e s).cw = s.cw := rfl
@[simp] theorem raise_dlen (e : ErrKind) : (raise e s).dlen = s.dlen := rfl
@[simp] theorem raise_prev (e : ErrKind) : (raise e s).prev = s.prev := rfl
@[simp] theorem raise_bitpos (e : ErrKind) : (raise e s).bitpos = s.bitpos := rfl
@[simp] theorem raise_status (e : ErrKind) : (raise e s).status = .fault := rfl
@[simp] theorem raise_err (e : ErrKind) : (raise e s).err = e := rfl
@[simp] theorem raise_mincs (e : ErrKind) : (raise e s).mincs = s.mincs := rfl
@[simp] theorem raise_inlen (e : ErrKind) : (raise e s).inlen = s.inlen := rfl
@[simp] theorem raise_outlen (e : ErrKind) : (raise e s).outlen = s.outlen := rfl
@[simp] theorem raise_dict (e : ErrKind) : (raise e s).dict = s.dict := rfl
@[simp] theorem raise_input (e : ErrKind) : (raise e s).input = s.input := rfl
@[simp] theorem raise_out (e : ErrKind) : (raise e s).out = s.out := rfl
@[simp] theorem raise_agenda (e : ErrKind) : (raise e s).agenda = s.agenda := rfl
@[simp] theorem raise_answers (e : ErrKind) : (raise e s).answers = s.answers := rfl
@[simp] theorem raise_draws (e : ErrKind) : (raise e s).draws = s.draws := rfl
@[simp] theorem raise_epoch (e : ErrKind) : (raise e s).epoch = s.epoch := rfl

/-! ### advance -/

@[simp] theorem advance_cw : (advance s).cw = s.cw := rfl
@[simp] theorem advance_dlen : (advance s).dlen = s.dlen := rfl
@[simp] theorem advance_prev : (advance s).prev = s.prev := rfl
@[simp] theorem advance_bitpos : (advance s).bitpos = BitVec.ofNat 35 (s.bitpos.toNat + s.cw.toNat) := rfl
@[simp] theorem advance_status : (advance s).status = s.status := rfl
@[simp] theorem advance_err : (advance s).err = s.err := rfl
@[simp] theorem advance_mincs : (advance s).mincs = s.mincs := rfl
@[simp] theorem advance_inlen : (advance s).inlen = s.inlen := rfl
@[simp] theorem advance_outlen : (advance s).outlen = s.outlen := rfl
@[simp] theorem advance_dict : (advance s).dict = s.dict := rfl
@[simp] theorem advance_input : (advance s).input = s.input := rfl
@[simp] theorem advance_out : (advance s).out = s.out := rfl
@[simp] theorem advance_agenda : (advance s).agenda = s.agenda := rfl
@[simp] theorem advance_answers : (advance s).answers = s.answers := rfl
@[simp] theorem advance_draws : (advance s).draws = s.draws := rfl
@[simp] theorem advance_epoch : (advance s).epoch = s.epoch := rfl

/-! ### emit -/

@[simp] theorem emit_cw (l : List Symbol) : (emit l s).cw = s.cw := rfl
@[simp] theorem emit_dlen (l : List Symbol) : (emit l s).dlen = s.dlen := rfl
@[simp] theorem emit_prev (l : List Symbol) : (emit l s).prev = s.prev := rfl
@[simp] theorem emit_bitpos (l : List Symbol) : (emit l s).bitpos = s.bitpos := rfl
@[simp] theorem emit_status (l : List Symbol) : (emit l s).status = s.status := rfl
@[simp] theorem emit_err (l : List Symbol) : (emit l s).err = s.err := rfl
@[simp] theorem emit_mincs (l : List Symbol) : (emit l s).mincs = s.mincs := rfl
@[simp] theorem emit_inlen (l : List Symbol) : (emit l s).inlen = s.inlen := rfl
@[simp] theorem emit_outlen (l : List Symbol) : (emit l s).outlen = s.outlen + l.length := rfl
@[simp] theorem emit_dict (l : List Symbol) : (emit l s).dict = s.dict := rfl
@[simp] theorem emit_input (l : List Symbol) : (emit l s).input = s.input := rfl
@[simp] theorem emit_out (l : List Symbol) : (emit l s).out = s.out ++ l := rfl
@[simp] theorem emit_agenda (l : List Symbol) : (emit l s).agenda = s.agenda := rfl
@[simp] theorem emit_answers (l : List Symbol) : (emit l s).answers = s.answers := rfl
@[simp] theorem emit_draws (l : List Symbol) : (emit l s).draws = s.draws := rfl
@[simp] theorem emit_epoch (l : List Symbol) : (emit l s).epoch = s.epoch := rfl

/-! ### grow -/

@[simp] theorem grow_cw (l : List Symbol) : (grow l s).cw = grownCw (s.dlen.toNat + 1) s.cw := rfl
@[simp] theorem grow_dlen (l : List Symbol) : (grow l s).dlen = BitVec.ofNat 13 (s.dlen.toNat + 1) := rfl
@[simp] theorem grow_prev (l : List Symbol) : (grow l s).prev = s.prev := rfl
@[simp] theorem grow_bitpos (l : List Symbol) : (grow l s).bitpos = s.bitpos := rfl
@[simp] theorem grow_status (l : List Symbol) : (grow l s).status = s.status := rfl
@[simp] theorem grow_err (l : List Symbol) : (grow l s).err = s.err := rfl
@[simp] theorem grow_mincs (l : List Symbol) : (grow l s).mincs = s.mincs := rfl
@[simp] theorem grow_inlen (l : List Symbol) : (grow l s).inlen = s.inlen := rfl
@[simp] theorem grow_outlen (l : List Symbol) : (grow l s).outlen = s.outlen := rfl
@[simp] theorem grow_dict (l : List Symbol) : (grow l s).dict = sparseSet s.dict s.dlen.toNat (.seq l) := rfl
@[simp] theorem grow_input (l : List Symbol) : (grow l s).input = s.input := rfl
@[simp] theorem grow_out (l : List Symbol) : (grow l s).out = s.out := rfl
@[simp] theorem grow_agenda (l : List Symbol) : (grow l s).agenda = s.agenda := rfl
@[simp] theorem grow_answers (l : List Symbol) : (grow l s).answers = s.answers := rfl
@[simp] theorem grow_draws (l : List Symbol) : (grow l s).draws = s.draws := rfl
@[simp] theorem grow_epoch (l : List Symbol) : (grow l s).epoch = s.epoch := rfl

/-! ### setPrev -/

@[simp] theorem setPrev_cw (code : Code) : (setPrev code s).cw = s.cw := rfl
@[simp] theorem setPrev_dlen (code : Code) : (setPrev code s).dlen = s.dlen := rfl
@[simp] theorem setPrev_prev (code : Code) : (setPrev code s).prev = code := rfl
@[simp] theorem setPrev_bitpos (code : Code) : (setPrev code s).bitpos = s.bitpos := rfl
@[simp] theorem setPrev_status (code : Code) : (setPrev code s).status = s.status := rfl
@[simp] theorem setPrev_err (code : Code) : (setPrev code s).err = s.err := rfl
@[simp] theorem setPrev_mincs (code : Code) : (setPrev code s).mincs = s.mincs := rfl
@[simp] theorem setPrev_inlen (code : Code) : (setPrev code s).inlen = s.inlen := rfl
@[simp] theorem setPrev_outlen (code : Code) : (setPrev code s).outlen = s.outlen := rfl
@[simp] theorem setPrev_dict (code : Code) : (setPrev code s).dict = s.dict := rfl
@[simp] theorem setPrev_input (code : Code) : (setPrev code s).input = s.input := rfl
@[simp] theorem setPrev_out (code : Code) : (setPrev code s).out = s.out := rfl
@[simp] theorem setPrev_agenda (code : Code) : (setPrev code s).agenda = s.agenda := rfl
@[simp] theorem setPrev_answers (code : Code) : (setPrev code s).answers = s.answers := rfl
@[simp] theorem setPrev_draws (code : Code) : (setPrev code s).draws = s.draws := rfl
@[simp] theorem setPrev_epoch (code : Code) : (setPrev code s).epoch = s.epoch := rfl

/-! ### clear -/

@[simp] theorem clear_cw : (clear s).cw = BitVec.ofNat 4 (initialCw s.mincs) := rfl
@[simp] theorem clear_dlen : (clear s).dlen = BitVec.ofNat 13 (initialDlen s.mincs) := rfl
@[simp] theorem clear_prev : (clear s).prev = BitVec.ofNat 12 (clearOf s.mincs) := rfl
@[simp] theorem clear_bitpos : (clear s).bitpos = s.bitpos := rfl
@[simp] theorem clear_status : (clear s).status = s.status := rfl
@[simp] theorem clear_err : (clear s).err = s.err := rfl
@[simp] theorem clear_mincs : (clear s).mincs = s.mincs := rfl
@[simp] theorem clear_inlen : (clear s).inlen = s.inlen := rfl
@[simp] theorem clear_outlen : (clear s).outlen = s.outlen := rfl
@[simp] theorem clear_dict : (clear s).dict = clearedDict s.mincs := rfl
@[simp] theorem clear_input : (clear s).input = s.input := rfl
@[simp] theorem clear_out : (clear s).out = s.out := rfl
@[simp] theorem clear_agenda : (clear s).agenda = s.agenda := rfl
@[simp] theorem clear_answers : (clear s).answers = s.answers := rfl
@[simp] theorem clear_draws : (clear s).draws = s.draws := rfl
@[simp] theorem clear_epoch : (clear s).epoch = s.epoch := rfl

/-! ### finish -/

@[simp] theorem finish_cw : (finish s).cw = s.cw := rfl
@[simp] theorem finish_dlen : (finish s).dlen = s.dlen := rfl
@[simp] theorem finish_prev : (finish s).prev = s.prev := rfl
@[simp] theorem finish_bitpos : (finish s).bitpos = s.bitpos := rfl
@[simp] theorem finish_status : (finish s).status = .done := rfl
@[simp] theorem finish_err : (finish s).err = s.err := rfl
@[simp] theorem finish_mincs : (finish s).mincs = s.mincs := rfl
@[simp] theorem finish_inlen : (finish s).inlen = s.inlen := rfl
@[simp] theorem finish_outlen : (finish s).outlen = s.outlen := rfl
@[simp] theorem finish_dict : (finish s).dict = s.dict := rfl
@[simp] theorem finish_input : (finish s).input = s.input := rfl
@[simp] theorem finish_out : (finish s).out = s.out := rfl
@[simp] theorem finish_agenda : (finish s).agenda = s.agenda := rfl
@[simp] theorem finish_answers : (finish s).answers = s.answers := rfl
@[simp] theorem finish_draws : (finish s).draws = s.draws := rfl
@[simp] theorem finish_epoch : (finish s).epoch = s.epoch := rfl

/-! ### beginRun -/

@[simp] theorem beginRun_cw : (beginRun s).cw = BitVec.ofNat 4 (initialCw s.mincs) := rfl
@[simp] theorem beginRun_dlen : (beginRun s).dlen = BitVec.ofNat 13 (initialDlen s.mincs) := rfl
@[simp] theorem beginRun_prev : (beginRun s).prev = BitVec.ofNat 12 (clearOf s.mincs) := rfl
@[simp] theorem beginRun_bitpos : (beginRun s).bitpos = 0 := rfl
@[simp] theorem beginRun_status : (beginRun s).status = .run := rfl
@[simp] theorem beginRun_err : (beginRun s).err = .none := rfl
@[simp] theorem beginRun_mincs : (beginRun s).mincs = s.mincs := rfl
@[simp] theorem beginRun_inlen : (beginRun s).inlen = s.inlen := rfl
@[simp] theorem beginRun_outlen : (beginRun s).outlen = 0 := rfl
@[simp] theorem beginRun_dict : (beginRun s).dict = clearedDict s.mincs := rfl
@[simp] theorem beginRun_input : (beginRun s).input = s.input := rfl
@[simp] theorem beginRun_out : (beginRun s).out = [] := rfl
@[simp] theorem beginRun_agenda : (beginRun s).agenda = s.agenda := rfl
@[simp] theorem beginRun_answers : (beginRun s).answers = s.answers := rfl
@[simp] theorem beginRun_draws : (beginRun s).draws = s.draws := rfl
@[simp] theorem beginRun_epoch : (beginRun s).epoch = s.epoch := rfl

/-! ### softReset -/

@[simp] theorem softReset_cw : (softReset s).cw = 0 := rfl
@[simp] theorem softReset_dlen : (softReset s).dlen = 0 := rfl
@[simp] theorem softReset_prev : (softReset s).prev = 0 := rfl
@[simp] theorem softReset_bitpos : (softReset s).bitpos = 0 := rfl
@[simp] theorem softReset_status : (softReset s).status = .idle := rfl
@[simp] theorem softReset_err : (softReset s).err = .none := rfl
@[simp] theorem softReset_mincs : (softReset s).mincs = s.mincs := rfl
@[simp] theorem softReset_inlen : (softReset s).inlen = s.inlen := rfl
@[simp] theorem softReset_outlen : (softReset s).outlen = 0 := rfl
@[simp] theorem softReset_dict : (softReset s).dict = [] := rfl
@[simp] theorem softReset_input : (softReset s).input = s.input := rfl
@[simp] theorem softReset_out : (softReset s).out = [] := rfl
@[simp] theorem softReset_agenda : (softReset s).agenda = s.agenda := rfl
@[simp] theorem softReset_answers : (softReset s).answers = s.answers := rfl
@[simp] theorem softReset_draws : (softReset s).draws = s.draws := rfl
@[simp] theorem softReset_epoch : (softReset s).epoch = s.epoch := rfl

/-! ### hardwareReset -/

@[simp] theorem hardwareReset_cw : (hardwareReset s).cw = 0 := rfl
@[simp] theorem hardwareReset_dlen : (hardwareReset s).dlen = 0 := rfl
@[simp] theorem hardwareReset_prev : (hardwareReset s).prev = 0 := rfl
@[simp] theorem hardwareReset_bitpos : (hardwareReset s).bitpos = 0 := rfl
@[simp] theorem hardwareReset_status : (hardwareReset s).status = .idle := rfl
@[simp] theorem hardwareReset_err : (hardwareReset s).err = .none := rfl
@[simp] theorem hardwareReset_mincs : (hardwareReset s).mincs = 0 := rfl
@[simp] theorem hardwareReset_inlen : (hardwareReset s).inlen = 0 := rfl
@[simp] theorem hardwareReset_outlen : (hardwareReset s).outlen = 0 := rfl
@[simp] theorem hardwareReset_dict : (hardwareReset s).dict = [] := rfl
@[simp] theorem hardwareReset_input : (hardwareReset s).input = [] := rfl
@[simp] theorem hardwareReset_out : (hardwareReset s).out = [] := rfl
@[simp] theorem hardwareReset_agenda : (hardwareReset s).agenda = s.agenda := rfl
@[simp] theorem hardwareReset_answers : (hardwareReset s).answers = s.answers := rfl
@[simp] theorem hardwareReset_draws : (hardwareReset s).draws = s.draws := rfl
@[simp] theorem hardwareReset_epoch : (hardwareReset s).epoch = s.epoch + 1 := rfl

/-! ### writeByte -/

@[simp] theorem writeByte_cw (a : BitVec 32) (b : Byte) : (writeByte a b s).cw = s.cw := rfl
@[simp] theorem writeByte_dlen (a : BitVec 32) (b : Byte) : (writeByte a b s).dlen = s.dlen := rfl
@[simp] theorem writeByte_prev (a : BitVec 32) (b : Byte) : (writeByte a b s).prev = s.prev := rfl
@[simp] theorem writeByte_bitpos (a : BitVec 32) (b : Byte) : (writeByte a b s).bitpos = s.bitpos := rfl
@[simp] theorem writeByte_status (a : BitVec 32) (b : Byte) : (writeByte a b s).status = s.status := rfl
@[simp] theorem writeByte_err (a : BitVec 32) (b : Byte) : (writeByte a b s).err = s.err := rfl
@[simp] theorem writeByte_mincs (a : BitVec 32) (b : Byte) : (writeByte a b s).mincs = s.mincs := rfl
@[simp] theorem writeByte_inlen (a : BitVec 32) (b : Byte) : (writeByte a b s).inlen = s.inlen := rfl
@[simp] theorem writeByte_outlen (a : BitVec 32) (b : Byte) : (writeByte a b s).outlen = s.outlen := rfl
@[simp] theorem writeByte_dict (a : BitVec 32) (b : Byte) : (writeByte a b s).dict = s.dict := rfl
@[simp] theorem writeByte_input (a : BitVec 32) (b : Byte) : (writeByte a b s).input = sparseSet s.input a.toNat b := rfl
@[simp] theorem writeByte_out (a : BitVec 32) (b : Byte) : (writeByte a b s).out = s.out := rfl
@[simp] theorem writeByte_agenda (a : BitVec 32) (b : Byte) : (writeByte a b s).agenda = s.agenda := rfl
@[simp] theorem writeByte_answers (a : BitVec 32) (b : Byte) : (writeByte a b s).answers = s.answers := rfl
@[simp] theorem writeByte_draws (a : BitVec 32) (b : Byte) : (writeByte a b s).draws = s.draws := rfl
@[simp] theorem writeByte_epoch (a : BitVec 32) (b : Byte) : (writeByte a b s).epoch = s.epoch := rfl

/-! ### answer -/

@[simp] theorem answer_cw (x : Answer) : (answer x s).cw = s.cw := rfl
@[simp] theorem answer_dlen (x : Answer) : (answer x s).dlen = s.dlen := rfl
@[simp] theorem answer_prev (x : Answer) : (answer x s).prev = s.prev := rfl
@[simp] theorem answer_bitpos (x : Answer) : (answer x s).bitpos = s.bitpos := rfl
@[simp] theorem answer_status (x : Answer) : (answer x s).status = s.status := rfl
@[simp] theorem answer_err (x : Answer) : (answer x s).err = s.err := rfl
@[simp] theorem answer_mincs (x : Answer) : (answer x s).mincs = s.mincs := rfl
@[simp] theorem answer_inlen (x : Answer) : (answer x s).inlen = s.inlen := rfl
@[simp] theorem answer_outlen (x : Answer) : (answer x s).outlen = s.outlen := rfl
@[simp] theorem answer_dict (x : Answer) : (answer x s).dict = s.dict := rfl
@[simp] theorem answer_input (x : Answer) : (answer x s).input = s.input := rfl
@[simp] theorem answer_out (x : Answer) : (answer x s).out = s.out := rfl
@[simp] theorem answer_agenda (x : Answer) : (answer x s).agenda = s.agenda := rfl
@[simp] theorem answer_answers (x : Answer) : (answer x s).answers = s.answers ++ [x] := rfl
@[simp] theorem answer_draws (x : Answer) : (answer x s).draws = s.draws := rfl
@[simp] theorem answer_epoch (x : Answer) : (answer x s).epoch = s.epoch := rfl

/-! ### setAgenda -/

@[simp] theorem setAgenda_cw (l : List Move) : (setAgenda l s).cw = s.cw := rfl
@[simp] theorem setAgenda_dlen (l : List Move) : (setAgenda l s).dlen = s.dlen := rfl
@[simp] theorem setAgenda_prev (l : List Move) : (setAgenda l s).prev = s.prev := rfl
@[simp] theorem setAgenda_bitpos (l : List Move) : (setAgenda l s).bitpos = s.bitpos := rfl
@[simp] theorem setAgenda_status (l : List Move) : (setAgenda l s).status = s.status := rfl
@[simp] theorem setAgenda_err (l : List Move) : (setAgenda l s).err = s.err := rfl
@[simp] theorem setAgenda_mincs (l : List Move) : (setAgenda l s).mincs = s.mincs := rfl
@[simp] theorem setAgenda_inlen (l : List Move) : (setAgenda l s).inlen = s.inlen := rfl
@[simp] theorem setAgenda_outlen (l : List Move) : (setAgenda l s).outlen = s.outlen := rfl
@[simp] theorem setAgenda_dict (l : List Move) : (setAgenda l s).dict = s.dict := rfl
@[simp] theorem setAgenda_input (l : List Move) : (setAgenda l s).input = s.input := rfl
@[simp] theorem setAgenda_out (l : List Move) : (setAgenda l s).out = s.out := rfl
@[simp] theorem setAgenda_agenda (l : List Move) : (setAgenda l s).agenda = l := rfl
@[simp] theorem setAgenda_answers (l : List Move) : (setAgenda l s).answers = s.answers := rfl
@[simp] theorem setAgenda_draws (l : List Move) : (setAgenda l s).draws = s.draws := rfl
@[simp] theorem setAgenda_epoch (l : List Move) : (setAgenda l s).epoch = s.epoch := rfl

/-! ### the operations that a run in progress, or an illegal `MINCS`, turns away -/

theorem writeMincs_running (v : RegValue) (h : s.status = .run) : writeMincs v s = s := by
  simp [writeMincs, running, h]

theorem writeMincs_idle (v : RegValue) (h : s.status ≠ .run) : writeMincs v s = { s with mincs := v.setWidth 8 } := by
  simp [writeMincs, running, h]

theorem writeInlen_running (v : RegValue) (h : s.status = .run) : writeInlen v s = s := by
  simp [writeInlen, running, h]

theorem writeInlen_idle (v : RegValue) (h : s.status ≠ .run) : writeInlen v s = { s with inlen := v.setWidth 32 } := by
  simp [writeInlen, running, h]

theorem startCommand_running (h : s.status = .run) : startCommand s = s := by
  simp [startCommand, running, h]

theorem startCommand_refused (h : s.status ≠ .run) (hm : mincsLegal s.mincs = false) :
    startCommand s = raise .invalidMinCodeSize s := by
  simp [startCommand, running, h, hm]

theorem startCommand_accepted (h : s.status ≠ .run) (hm : mincsLegal s.mincs = true) : startCommand s = beginRun s := by
  simp [startCommand, running, h, hm]

@[simp] theorem writeMincs_cw (v : RegValue) : (writeMincs v s).cw = s.cw := by
  unfold writeMincs; repeat (first | rfl | split)
@[simp] theorem writeMincs_dlen (v : RegValue) : (writeMincs v s).dlen = s.dlen := by
  unfold writeMincs; repeat (first | rfl | split)
@[simp] theorem writeMincs_prev (v : RegValue) : (writeMincs v s).prev = s.prev := by
  unfold writeMincs; repeat (first | rfl | split)
@[simp] theorem writeMincs_bitpos (v : RegValue) : (writeMincs v s).bitpos = s.bitpos := by
  unfold writeMincs; repeat (first | rfl | split)
@[simp] theorem writeMincs_status (v : RegValue) : (writeMincs v s).status = s.status := by
  unfold writeMincs; repeat (first | rfl | split)
@[simp] theorem writeMincs_err (v : RegValue) : (writeMincs v s).err = s.err := by
  unfold writeMincs; repeat (first | rfl | split)
@[simp] theorem writeMincs_inlen (v : RegValue) : (writeMincs v s).inlen = s.inlen := by
  unfold writeMincs; repeat (first | rfl | split)
@[simp] theorem writeMincs_outlen (v : RegValue) : (writeMincs v s).outlen = s.outlen := by
  unfold writeMincs; repeat (first | rfl | split)
@[simp] theorem writeMincs_dict (v : RegValue) : (writeMincs v s).dict = s.dict := by
  unfold writeMincs; repeat (first | rfl | split)
@[simp] theorem writeMincs_input (v : RegValue) : (writeMincs v s).input = s.input := by
  unfold writeMincs; repeat (first | rfl | split)
@[simp] theorem writeMincs_out (v : RegValue) : (writeMincs v s).out = s.out := by
  unfold writeMincs; repeat (first | rfl | split)
@[simp] theorem writeMincs_agenda (v : RegValue) : (writeMincs v s).agenda = s.agenda := by
  unfold writeMincs; repeat (first | rfl | split)
@[simp] theorem writeMincs_answers (v : RegValue) : (writeMincs v s).answers = s.answers := by
  unfold writeMincs; repeat (first | rfl | split)
@[simp] theorem writeMincs_draws (v : RegValue) : (writeMincs v s).draws = s.draws := by
  unfold writeMincs; repeat (first | rfl | split)
@[simp] theorem writeMincs_epoch (v : RegValue) : (writeMincs v s).epoch = s.epoch := by
  unfold writeMincs; repeat (first | rfl | split)

@[simp] theorem writeInlen_cw (v : RegValue) : (writeInlen v s).cw = s.cw := by
  unfold writeInlen; repeat (first | rfl | split)
@[simp] theorem writeInlen_dlen (v : RegValue) : (writeInlen v s).dlen = s.dlen := by
  unfold writeInlen; repeat (first | rfl | split)
@[simp] theorem writeInlen_prev (v : RegValue) : (writeInlen v s).prev = s.prev := by
  unfold writeInlen; repeat (first | rfl | split)
@[simp] theorem writeInlen_bitpos (v : RegValue) : (writeInlen v s).bitpos = s.bitpos := by
  unfold writeInlen; repeat (first | rfl | split)
@[simp] theorem writeInlen_status (v : RegValue) : (writeInlen v s).status = s.status := by
  unfold writeInlen; repeat (first | rfl | split)
@[simp] theorem writeInlen_err (v : RegValue) : (writeInlen v s).err = s.err := by
  unfold writeInlen; repeat (first | rfl | split)
@[simp] theorem writeInlen_mincs (v : RegValue) : (writeInlen v s).mincs = s.mincs := by
  unfold writeInlen; repeat (first | rfl | split)
@[simp] theorem writeInlen_outlen (v : RegValue) : (writeInlen v s).outlen = s.outlen := by
  unfold writeInlen; repeat (first | rfl | split)
@[simp] theorem writeInlen_dict (v : RegValue) : (writeInlen v s).dict = s.dict := by
  unfold writeInlen; repeat (first | rfl | split)
@[simp] theorem writeInlen_input (v : RegValue) : (writeInlen v s).input = s.input := by
  unfold writeInlen; repeat (first | rfl | split)
@[simp] theorem writeInlen_out (v : RegValue) : (writeInlen v s).out = s.out := by
  unfold writeInlen; repeat (first | rfl | split)
@[simp] theorem writeInlen_agenda (v : RegValue) : (writeInlen v s).agenda = s.agenda := by
  unfold writeInlen; repeat (first | rfl | split)
@[simp] theorem writeInlen_answers (v : RegValue) : (writeInlen v s).answers = s.answers := by
  unfold writeInlen; repeat (first | rfl | split)
@[simp] theorem writeInlen_draws (v : RegValue) : (writeInlen v s).draws = s.draws := by
  unfold writeInlen; repeat (first | rfl | split)
@[simp] theorem writeInlen_epoch (v : RegValue) : (writeInlen v s).epoch = s.epoch := by
  unfold writeInlen; repeat (first | rfl | split)

@[simp] theorem startCommand_mincs : (startCommand s).mincs = s.mincs := by
  unfold startCommand; repeat (first | rfl | split)
@[simp] theorem startCommand_inlen : (startCommand s).inlen = s.inlen := by
  unfold startCommand; repeat (first | rfl | split)
@[simp] theorem startCommand_input : (startCommand s).input = s.input := by
  unfold startCommand; repeat (first | rfl | split)
@[simp] theorem startCommand_agenda : (startCommand s).agenda = s.agenda := by
  unfold startCommand; repeat (first | rfl | split)
@[simp] theorem startCommand_answers : (startCommand s).answers = s.answers := by
  unfold startCommand; repeat (first | rfl | split)
@[simp] theorem startCommand_draws : (startCommand s).draws = s.draws := by
  unfold startCommand; repeat (first | rfl | split)
@[simp] theorem startCommand_epoch : (startCommand s).epoch = s.epoch := by
  unfold startCommand; repeat (first | rfl | split)

@[simp] theorem writeReg_input (n : Nat) (v : RegValue) : (writeReg n v s).input = s.input := by
  unfold writeReg; repeat (first | simp | split)
@[simp] theorem writeReg_agenda (n : Nat) (v : RegValue) : (writeReg n v s).agenda = s.agenda := by
  unfold writeReg; repeat (first | simp | split)
@[simp] theorem writeReg_answers (n : Nat) (v : RegValue) : (writeReg n v s).answers = s.answers := by
  unfold writeReg; repeat (first | simp | split)
@[simp] theorem writeReg_draws (n : Nat) (v : RegValue) : (writeReg n v s).draws = s.draws := by
  unfold writeReg; repeat (first | simp | split)
@[simp] theorem writeReg_epoch (n : Nat) (v : RegValue) : (writeReg n v s).epoch = s.epoch := by
  unfold writeReg; repeat (first | simp | split)

@[simp] theorem drawSymbol_cw : (drawSymbol s).2.cw = s.cw := rfl
@[simp] theorem drawSymbol_dlen : (drawSymbol s).2.dlen = s.dlen := rfl
@[simp] theorem drawSymbol_prev : (drawSymbol s).2.prev = s.prev := rfl
@[simp] theorem drawSymbol_bitpos : (drawSymbol s).2.bitpos = s.bitpos := rfl
@[simp] theorem drawSymbol_status : (drawSymbol s).2.status = s.status := rfl
@[simp] theorem drawSymbol_err : (drawSymbol s).2.err = s.err := rfl
@[simp] theorem drawSymbol_mincs : (drawSymbol s).2.mincs = s.mincs := rfl
@[simp] theorem drawSymbol_inlen : (drawSymbol s).2.inlen = s.inlen := rfl
@[simp] theorem drawSymbol_outlen : (drawSymbol s).2.outlen = s.outlen := rfl
@[simp] theorem drawSymbol_dict : (drawSymbol s).2.dict = s.dict := rfl
@[simp] theorem drawSymbol_input : (drawSymbol s).2.input = s.input := rfl
@[simp] theorem drawSymbol_out : (drawSymbol s).2.out = s.out := rfl
@[simp] theorem drawSymbol_agenda : (drawSymbol s).2.agenda = s.agenda := rfl
@[simp] theorem drawSymbol_answers : (drawSymbol s).2.answers = s.answers := rfl
@[simp] theorem drawSymbol_draws : (drawSymbol s).2.draws = s.draws + 1 := rfl
@[simp] theorem drawSymbol_epoch : (drawSymbol s).2.epoch = s.epoch := rfl

end Sys2Proof.Machine
end

