-- ==== Sys2Proof/Laws/Ops.lean ====
section
/-! SUPPORT. One specification lemma per shared operation: what it does, said once. -/

namespace Sys2Proof.Machine

/-! ### `MINCS` -/

theorem mincsLegal_iff (m : BitVec 8) : mincsLegal m = true ↔ 2 ≤ m.toNat ∧ m.toNat ≤ 11 := by
  simp only [mincsLegal, Bool.and_eq_true, decide_eq_true_eq]
  exact Iff.rfl

theorem clearOf_pos (m : BitVec 8) : 0 < clearOf m := Nat.two_pow_pos _

/-- I1 of 10_state.md R31: `4 <= CLEAR <= 2048`. -/
theorem clearOf_bounds {m : BitVec 8} (h : mincsLegal m = true) : 4 ≤ clearOf m ∧ clearOf m ≤ 2048 := by
  obtain ⟨h1, h2⟩ := (mincsLegal_iff m).mp h
  exact ⟨Nat.pow_le_pow_right (n := 2) (by norm_num) h1, Nat.pow_le_pow_right (n := 2) (by norm_num) h2⟩

/-! ### the predicates that steer a step -/

@[simp] theorem running_eq_true (s : State) : running s = true ↔ s.status = .run := decide_eq_true_iff

@[simp] theorem running_eq_false (s : State) : running s = false ↔ s.status ≠ .run := decide_eq_false_iff_not

theorem prevIsClear_eq_true (s : State) : prevIsClear s = true ↔ s.prev.toNat = clearOf s.mincs := decide_eq_true_iff

theorem prevIsClear_eq_false (s : State) : prevIsClear s = false ↔ s.prev.toNat ≠ clearOf s.mincs :=
  decide_eq_false_iff_not

theorem dictFull_eq_true (s : State) : dictFull s = true ↔ 4096 ≤ s.dlen.toNat := decide_eq_true_iff

theorem dictFull_eq_false (s : State) : dictFull s = false ↔ s.dlen.toNat < 4096 :=
  decide_eq_false_iff_not.trans Nat.not_le

theorem pastEnd_eq_true (s : State) : pastEnd s = true ↔ 8 * s.inlen.toNat < s.bitpos.toNat + s.cw.toNat :=
  decide_eq_true_iff

theorem pastEnd_eq_false (s : State) : pastEnd s = false ↔ s.bitpos.toNat + s.cw.toNat ≤ 8 * s.inlen.toNat :=
  decide_eq_false_iff_not.trans Nat.not_lt

/-- The width after a growth, as a number: it does not overflow (40_fetch_and_width.md R66). -/
theorem grownCw_toNat (n : Nat) (cw : BitVec 4) :
    (grownCw n cw).toNat = if n = 2 ^ cw.toNat ∧ cw.toNat < 12 then cw.toNat + 1 else cw.toNat := by
  unfold grownCw Config.maxCw
  split
  · rw [BitVec.toNat_ofNat]
    exact Nat.mod_eq_of_lt (by omega)
  · rfl

/-- The dictionary length after a growth, as a number: it does not overflow (40_fetch_and_width.md R66). -/
theorem grow_dlen_toNat {s : State} (l : List Symbol) (h : s.dlen.toNat < 4096) :
    (grow l s).dlen.toNat = s.dlen.toNat + 1 := by
  rw [grow_dlen, BitVec.toNat_ofNat]
  exact Nat.mod_eq_of_lt (by omega)

/-- The registers after `Clear()` as numbers: they do not overflow for a legal `MINCS` (40_fetch_and_width.md R66). -/
theorem clear_toNat {s : State} (h : mincsLegal s.mincs = true) :
    (clear s).dlen.toNat = clearOf s.mincs + 2 ∧ (clear s).cw.toNat = s.mincs.toNat + 1
      ∧ (clear s).prev.toNat = clearOf s.mincs := by
  have hb := clearOf_bounds h
  have hm := (mincsLegal_iff _).mp h
  refine ⟨?_, ?_, ?_⟩
  · rw [clear_dlen, BitVec.toNat_ofNat]
    exact Nat.mod_eq_of_lt (by unfold initialDlen; omega)
  · rw [clear_cw, BitVec.toNat_ofNat]
    exact Nat.mod_eq_of_lt (by unfold initialCw; omega)
  · rw [clear_prev, BitVec.toNat_ofNat]
    exact Nat.mod_eq_of_lt (by omega)

/-! ### dictionary entries -/

/-- What a lookup that answers has found: a non-empty sequence and its first symbol. -/
theorem lookup_eq_ok_iff (s : State) (c : Nat) (k : Symbol) (l : List Symbol) :
    lookup s c = .ok (k, l) ↔ sparseGet s.dict c = some (.seq l) ∧ l.head? = some k := by
  unfold lookup
  split <;> simp_all
  constructor
  · rintro ⟨rfl, rfl⟩
    simp
  · rintro ⟨rfl, h⟩
    exact ⟨by simpa using h, rfl⟩

/-- A lookup answers when the slot holds a non-empty sequence. -/
theorem lookup_seq {s : State} {c : Nat} {l : List Symbol} (h : sparseGet s.dict c = some (.seq l)) (hl : l ≠ []) :
    ∃ k, l.head? = some k ∧ lookup s c = .ok (k, l) := by
  obtain ⟨k, r, rfl⟩ := List.exists_cons_of_ne_nil hl
  exact ⟨k, rfl, (lookup_eq_ok_iff ..).mpr ⟨h, rfl⟩⟩

/-- A lookup reads nothing but the dictionary. -/
theorem lookup_congr {s t : State} (h : t.dict = s.dict) (c : Nat) : lookup t c = lookup s c := by
  unfold lookup
  rw [h]

theorem sparseGet_rootEntries (n first c : Nat) :
    sparseGet (rootEntries n first) c
      = if first ≤ c ∧ c < first + n then some (.seq [BitVec.ofNat 11 c]) else none := by
  induction n generalizing first with
  | zero => simp [rootEntries]
  | succ n ih =>
    simp only [rootEntries, sparseGet_cons, ih]
    by_cases hc : first = c
    · subst hc; simp
    · rw [if_neg hc]
      congr 1
      simp only [eq_iff_iff]
      omega

/-- The table of 41_control_codes.md R74: what every slot holds after `Clear()`. -/
theorem sparseGet_clearedDict (m : BitVec 8) (c : Nat) :
    sparseGet (clearedDict m) c
      = if c < clearOf m then some (.seq [BitVec.ofNat 11 c])
        else if c = clearOf m then some (.seq [])
        else if c = eoiOf m then some .invalid
        else none := by
  rw [clearedDict, sparseGet_append, sparseGet_rootEntries]
  by_cases h : c < clearOf m
  · simp [h]
  · have h1 : ¬(0 ≤ c ∧ c < 0 + clearOf m) := by omega
    rw [if_neg h1, if_neg h]
    simp only [Option.orElse_none, sparseGet_cons, sparseGet_nil, eq_comm (b := c)]

theorem rootEntries_keys {n first : Nat} {x : Nat × Entry} (h : x ∈ rootEntries n first) :
    first ≤ x.1 ∧ x.1 < first + n := by
  induction n generalizing first with
  | zero => simp [rootEntries] at h
  | succ n ih =>
    rcases List.mem_cons.mp h with rfl | h
    · dsimp only
      omega
    · have := ih h
      omega

theorem rootEntries_pairwise (n first : Nat) : (rootEntries n first).Pairwise (fun x y => x.1 < y.1) := by
  induction n generalizing first with
  | zero => exact List.Pairwise.nil
  | succ n ih =>
    refine List.pairwise_cons.mpr ⟨fun y hy => ?_, ih (first + 1)⟩
    have := rootEntries_keys hy
    dsimp only
    omega

theorem clearedDict_wf {m : BitVec 8} (h : mincsLegal m = true) : Dict.wf (clearedDict m) := by
  have hb := clearOf_bounds h
  refine ⟨?_, fun x hx => ?_⟩
  · refine List.pairwise_append.mpr ⟨rootEntries_pairwise _ _, ?_, fun x hx y hy => ?_⟩
    · simp [eoiOf]
    · have := rootEntries_keys hx
      simp only [List.mem_cons, List.not_mem_nil, or_false] at hy
      rcases hy with rfl | rfl <;> simp only [eoiOf] <;> omega
  · simp only [clearedDict, List.mem_append, List.mem_cons, List.not_mem_nil, or_false] at hx
    rcases hx with hx | rfl | rfl
    · have := rootEntries_keys hx
      simp only [Config.dictCap]
      omega
    · simp only [Config.dictCap]
      omega
    · simp only [eoiOf, Config.dictCap]
      omega

/-! ### the payload memory -/

theorem reset_memory_wf : Memory.wf State.reset.input := sparseWf_nil _

theorem writeByte_memory_wf {s : State} (h : Memory.wf s.input) (a : BitVec 32) (b : Byte) :
    Memory.wf (writeByte a b s).input := sparseSet_wf h a.isLt b

/-- 20_memory.md R40: a byte is read as it was last loaded. -/
@[simp] theorem byteAt_writeByte_same (s : State) (a : BitVec 32) (b : Byte) : byteAt (writeByte a b s) a.toNat = b := by
  simp [byteAt]

theorem byteAt_writeByte_other (s : State) (a : BitVec 32) (b : Byte) {c : Nat} (h : c ≠ a.toNat) :
    byteAt (writeByte a b s) c = byteAt s c := by
  simp [byteAt, sparseGet_set_other _ _ h]

/-- Reading a byte depends on `IN` alone. -/
theorem byteAt_congr {s t : State} (h : t.input = s.input) (he : t.epoch = s.epoch) (a : Nat) : byteAt t a = byteAt s a := by
  rw [byteAt, byteAt, h, he]

/-! ### bits -/

@[simp] theorem bitsAt_length (s : State) (p n : Nat) : (bitsAt s p n).length = n := by
  induction n generalizing p with
  | zero => rfl
  | succ n ih => simp [bitsAt, ih]

theorem bitsAt_getElem? (s : State) (p n i : Nat) (h : i < n) : (bitsAt s p n)[i]? = some (inBit s (p + i)) := by
  induction n generalizing p i with
  | zero => omega
  | succ n ih =>
    cases i with
    | zero => rfl
    | succ i =>
      have := ih (p + 1) i (by omega)
      simp only [bitsAt, List.getElem?_cons_succ, this]
      congr 2
      omega

/-- Bits of the payload depend on the bytes alone. -/
theorem bitsAt_congr {s t : State} (p n : Nat) (h : ∀ a, p / 8 ≤ a → a ≤ (p + n) / 8 → 8 * a < p + n → byteAt t a = byteAt s a) :
    bitsAt t p n = bitsAt s p n := by
  induction n generalizing p with
  | zero => rfl
  | succ n ih =>
    simp only [bitsAt, inBit]
    rw [h (p / 8) (le_refl _) (by omega) (by omega), ih (p + 1) fun a h1 h2 h3 => h a (by omega) (by omega) (by omega)]

/-! ### bits as numbers -/

theorem assemble_lt (l : List Bool) : assemble l < 2 ^ l.length := by
  induction l with
  | nil => simp [assemble]
  | cons b l ih =>
    simp only [assemble, List.length_cons, pow_succ]
    cases b <;> simp <;> omega

@[simp] theorem bitsOf_length (n v : Nat) : (bitsOf n v).length = n := by
  induction n generalizing v with
  | zero => rfl
  | succ n ih => simp [bitsOf, ih]

theorem bit_toNat (v : Nat) : (v % 2 == 1).toNat = v % 2 := by
  rcases Nat.mod_two_eq_zero_or_one v with h | h <;> simp [h]

/-- Writing a number in `n` bits and reading them back keeps its low `n` bits. -/
theorem assemble_bitsOf (n v : Nat) : assemble (bitsOf n v) = v % 2 ^ n := by
  induction n generalizing v with
  | zero => simp [assemble, bitsOf, Nat.mod_one]
  | succ n ih =>
    simp only [bitsOf, assemble, ih, bit_toNat, pow_succ, Nat.mul_comm (2 ^ n) 2, Nat.mod_mul]

theorem bitsOf_assemble (l : List Bool) : bitsOf l.length (assemble l) = l := by
  induction l with
  | nil => rfl
  | cons b l ih =>
    have h1 : (b.toNat + 2 * assemble l) % 2 = b.toNat := by cases b <;> simp
    have h2 : (b.toNat + 2 * assemble l) / 2 = assemble l := by cases b <;> simp; omega
    simp only [List.length_cons, bitsOf, assemble, h1, h2, ih]
    cases b <;> rfl

end Sys2Proof.Machine
end

