-- ==== Sys2Proof/Laws/Exec.lean ====
section
/-! SUPPORT. One lemma per operation that says everything it can do when it answers a next state; what it leaves alone then
follows from the field lemmas of Laws/State.lean. -/

namespace Sys2Proof.Machine

/-- The two ways `KNOWN` ends in a next state (42_data_codes.md R85). -/
theorem execKnown_cases {code : Code} {s t : State} (h : execKnown code s = .next t) :
    ∃ k l, lookup s code.toNat = .ok (k, l) ∧
      ((prevIsClear s = true ∨ dictFull s = true) ∧ t = setPrev code (emit l s) ∨
        prevIsClear s = false ∧ dictFull s = false ∧
          ∃ j p, lookup s s.prev.toNat = .ok (j, p) ∧ t = setPrev code (grow (p ++ [k]) (emit l s))) := by
  unfold execKnown at h
  split at h
  · cases h
  · rename_i k l hl
    refine ⟨k, l, hl, ?_⟩
    split at h
    · rename_i hc
      exact .inl ⟨by simpa using hc, by simpa using h.symm⟩
    · rename_i hc
      simp only [Bool.or_eq_true, not_or, Bool.not_eq_true] at hc
      split at h
      · cases h
      · rename_i j p hp
        exact .inr ⟨hc.1, hc.2, j, p, hp, by simpa using h.symm⟩

/-- The two ways `NEXT` ends in a next state (42_data_codes.md R85). -/
theorem execNext_cases {code : Code} {s t : State} (h : execNext code s = .next t) :
    prevIsClear s = true ∧ t = raise .invalidLzwCode s ∨
      prevIsClear s = false ∧ dictFull s = false ∧
        ∃ k p, lookup s s.prev.toNat = .ok (k, p) ∧ t = setPrev code (emit (p ++ [k]) (grow (p ++ [k]) s)) := by
  unfold execNext at h
  split at h
  · rename_i hc
    exact .inl ⟨hc, by simpa using h.symm⟩
  · rename_i hc
    split at h
    · cases h
    · rename_i hf
      split at h
      · cases h
      · rename_i k p hp
        exact .inr ⟨by simpa using hc, by simpa using hf, k, p, hp, by simpa using h.symm⟩

/-- `CLR` ends in a next state only with a legal `MINCS`, and then it is `Clear()`. -/
theorem execClr_cases {s t : State} (h : execClr s = .next t) : mincsLegal s.mincs = true ∧ t = clear s := by
  unfold execClr at h
  split at h
  · exact ⟨‹_›, by simpa using h.symm⟩
  · cases h

/-- The two ways `LOAD` goes. -/
theorem execLoad_eq (a : BitVec 32) (b : Byte) (s : State) :
    execLoad a b s =
      if s.status = .run ∧ a.toNat < s.inlen.toNat then .refused .loadDuringRun else .next (writeByte a b s) := by
  simp [execLoad]

/-- `LOAD` ends in a next state unless it would write the running payload. -/
theorem execLoad_cases {a : BitVec 32} {b : Byte} {s t : State} (h : execLoad a b s = .next t) :
    ¬(s.status = .run ∧ a.toNat < s.inlen.toNat) ∧ t = writeByte a b s := by
  rw [execLoad_eq] at h
  split at h
  · cases h
  · rename_i hc
    exact ⟨hc, by simpa using h.symm⟩

/-- `DRAIN` always ends in a next state that differs in what the host has received, and in the count of free symbols. -/
theorem execDrain_cases {i : Nat} {s t : State} (h : execDrain i s = .next t) :
    (∃ k, s.out[i]? = some k ∧ t = answer (.sym k) s) ∨
      s.out[i]? = none ∧ t = answer (.sym (drawSymbol s).1) (drawSymbol s).2 := by
  unfold execDrain at h
  split at h
  · rename_i k hk
    exact .inl ⟨k, hk, by simpa using h.symm⟩
  · rename_i hn
    exact .inr ⟨hn, by simpa using h.symm⟩

theorem execEoi_cases {s t : State} (h : execEoi s = .next t) : t = finish s := by
  simpa [execEoi] using h.symm

theorem execBad_cases {code : Code} {s t : State} (h : execBad code s = .next t) : t = raise .invalidLzwCode s := by
  simpa [execBad] using h.symm

/-- The three ways a `START` goes (43_host_commands.md R90). -/
theorem startCommand_cases (s : State) :
    s.status = .run ∧ startCommand s = s ∨
      s.status ≠ .run ∧ mincsLegal s.mincs = false ∧ startCommand s = raise .invalidMinCodeSize s ∨
      s.status ≠ .run ∧ mincsLegal s.mincs = true ∧ startCommand s = beginRun s := by
  by_cases h : s.status = .run
  · exact .inl ⟨h, startCommand_running s h⟩
  · cases hm : mincsLegal s.mincs
    · exact .inr (.inl ⟨h, rfl, startCommand_refused s h hm⟩)
    · exact .inr (.inr ⟨h, rfl, startCommand_accepted s h hm⟩)

/-- The five ways a register write goes (43_host_commands.md R88). -/
theorem writeReg_cases (n : Nat) (v : RegValue) (s : State) :
    writeReg n v s = s ∨ n = 0 ∧ writeReg n v s = softReset s ∨ n = 0 ∧ writeReg n v s = startCommand s ∨
      s.status ≠ .run ∧ writeReg n v s = { s with mincs := v.setWidth 8 } ∨
      s.status ≠ .run ∧ writeReg n v s = { s with inlen := v.setWidth 32 } := by
  unfold writeReg
  split
  · split
    · exact .inr (.inl ⟨‹_›, rfl⟩)
    · split
      · exact .inr (.inr (.inl ⟨‹_›, rfl⟩))
      · exact .inl rfl
  · by_cases h : s.status = .run
    · left
      split
      · exact writeMincs_running s v h
      · split
        · exact writeInlen_running s v h
        · rfl
    · split
      · exact .inr (.inr (.inr (.inl ⟨h, writeMincs_idle s v h⟩)))
      · split
        · exact .inr (.inr (.inr (.inr ⟨h, writeInlen_idle s v h⟩)))
        · exact .inl rfl

/-- Growth keeps the dictionary canonical. -/
theorem grow_dict_wf {s : State} (h : Dict.wf s.dict) (hf : dictFull s = false) (l : List Symbol) : Dict.wf (grow l s).dict := by
  refine sparseSet_wf h ?_ _
  simpa [dictFull] using hf

end Sys2Proof.Machine
end

