-- ==== Sys2Proof/Laws/Step.lean ====
section
/-! SUPPORT. What a step can do: whose turn it is, and what the fetch gives. -/

namespace Sys2Proof.Machine

/-! ### whose turn it is -/

theorem nextTurn_nil {s : State} (h : s.agenda = []) : nextTurn s = coreTurn s := by
  simp [nextTurn, h]

theorem nextTurn_core {s : State} {rest : List Move} (h : s.agenda = .core :: rest) :
    nextTurn s = coreTurn (setAgenda rest s) := by
  simp [nextTurn, h]

theorem nextTurn_host {s : State} {c : HostCmd} {rest : List Move} (h : s.agenda = .host c :: rest) :
    nextTurn s = .run (decodeCmd c) (setAgenda rest s) := by
  simp [nextTurn, h]

theorem nextTurn_hardReset {s : State} {rest : List Move} (h : s.agenda = .hardReset :: rest) :
    nextTurn s = .settle (hardwareReset (setAgenda rest s)) := by
  simp [nextTurn, h]

/-- When the core has the turn, what it does is done in the state whose script has moved on. -/
theorem nextTurn_coreTurn {s : State} (h : CoreTurn s) : nextTurn s = coreTurn (setAgenda s.agenda.tail s) := by
  rcases h with h | ⟨rest, h⟩
  · have hs : setAgenda s.agenda.tail s = s := by
      rw [h, List.tail_nil, ← h]
      rfl
    rw [hs, nextTurn_nil h]
  · rw [nextTurn_core h, h]
    rfl

/-- A transaction is never read as a code. -/
theorem decodeCmd_isCode (c : HostCmd) : isCode (decodeCmd c) = false := by
  cases c with
  | write n v =>
    simp only [decodeCmd]
    split
    · rfl
    · split <;> rfl
  | read n => rfl
  | load a b => rfl
  | drain i => rfl

/-! ### the fetch -/

/-- A full code decodes, whatever its value (30_encoding.md R53: the decoder is total). -/
theorem decodeBits_exact {c : CodeCtx} {bits : List Bool} (h1 : 3 ≤ c.cw.toNat) (h2 : c.cw.toNat ≤ 12)
    (hl : bits.length = c.cw.toNat) : decodeBits c bits = .ok (classify c (BitVec.ofNat 12 (assemble bits)), []) := by
  have hw : ¬(c.cw.toNat < Config.minCw ∨ Config.maxCw < c.cw.toNat) := by
    simp only [Config.minCw, Config.maxCw]
    omega
  simp only [decodeBits, if_neg hw, hl, lt_irrefl, if_false]
  simp [← hl]

/-- The code the fetch reads: `ReadBits(BITPOS, CW)`. -/
def fetchedCode (s : State) : Code := BitVec.ofNat 12 (assemble (bitsAt s s.bitpos.toNat s.cw.toNat))

theorem fetchTurn_pastEnd {s : State} (h : pastEnd s = true) : fetchTurn s = .settle (raise .unexpectedEndOfStream s) := by
  simp [fetchTurn, h]

theorem fetchTurn_code {s : State} (h : pastEnd s = false) (h1 : 3 ≤ s.cw.toNat) (h2 : s.cw.toNat ≤ 12) :
    fetchTurn s = .run (classify (codeCtx s) (fetchedCode s)) (advance s) := by
  have hd := decodeBits_exact (c := codeCtx s) (bits := bitsAt s s.bitpos.toNat s.cw.toNat) h1 h2 (bitsAt_length ..)
  simp only [fetchTurn, h, hd, fetchedCode]
  rfl

/-- `BITPOS` does not wrap on a fetch that succeeds (10_state.md R15). -/
theorem advance_bitpos_toNat {s : State} (h : pastEnd s = false) :
    (advance s).bitpos.toNat = s.bitpos.toNat + s.cw.toNat := by
  have h' := (pastEnd_eq_false s).mp h
  have := s.inlen.isLt
  rw [advance_bitpos, BitVec.toNat_ofNat]
  exact Nat.mod_eq_of_lt (by omega)

/-- The fetched code has `CW` bits. -/
theorem fetchedCode_lt (s : State) : (fetchedCode s).toNat < 2 ^ s.cw.toNat := by
  have h1 := assemble_lt (bitsAt s s.bitpos.toNat s.cw.toNat)
  rw [bitsAt_length] at h1
  rw [fetchedCode, BitVec.toNat_ofNat]
  exact lt_of_le_of_lt (Nat.mod_le _ _) h1

/-- What the core's turn can be. -/
theorem coreTurn_cases (s : State) :
    s.status ≠ .run ∧ coreTurn s = .settle s ∨
      s.status = .run ∧ pastEnd s = true ∧ coreTurn s = .settle (raise .unexpectedEndOfStream s) ∨
      s.status = .run ∧ pastEnd s = false ∧ (3 ≤ s.cw.toNat ∧ s.cw.toNat ≤ 12) ∧
        coreTurn s = .run (classify (codeCtx s) (fetchedCode s)) (advance s) ∨
      s.status = .run ∧ pastEnd s = false ∧ ¬(3 ≤ s.cw.toNat ∧ s.cw.toNat ≤ 12) ∧ coreTurn s = .stop .widthOutOfRange := by
  by_cases hr : s.status = .run
  · right
    have hc : coreTurn s = fetchTurn s := by simp [coreTurn, running, hr]
    cases hp : pastEnd s
    · right
      by_cases hw : 3 ≤ s.cw.toNat ∧ s.cw.toNat ≤ 12
      · exact .inl ⟨hr, rfl, hw, hc.trans (fetchTurn_code hp hw.1 hw.2)⟩
      · refine .inr ⟨hr, rfl, hw, hc.trans ?_⟩
        have hw' : (codeCtx s).cw.toNat < Config.minCw ∨ Config.maxCw < (codeCtx s).cw.toNat := by
          simp only [codeCtx, Config.minCw, Config.maxCw]
          omega
        simp [fetchTurn, hp, decodeBits, hw']
    · exact .inl ⟨hr, rfl, hc.trans (fetchTurn_pastEnd hp)⟩
  · exact .inl ⟨hr, by simp [coreTurn, running, hr]⟩

/-- The table of 30_encoding.md R53, as the operation a code is read as. -/
theorem classify_cases (c : CodeCtx) (code : Code) :
    code.toNat = clearOf c.mincs ∧ classify c code = .clr ∨
      code.toNat ≠ clearOf c.mincs ∧ code.toNat = eoiOf c.mincs ∧ classify c code = .eoi ∨
      code.toNat ≠ clearOf c.mincs ∧ code.toNat ≠ eoiOf c.mincs ∧ code.toNat < c.dlen.toNat ∧
        classify c code = .known code ∨
      code.toNat ≠ clearOf c.mincs ∧ code.toNat ≠ eoiOf c.mincs ∧ code.toNat = c.dlen.toNat ∧
        classify c code = .next code ∨
      code.toNat ≠ clearOf c.mincs ∧ code.toNat ≠ eoiOf c.mincs ∧ c.dlen.toNat < code.toNat ∧
        classify c code = .bad code := by
  unfold classify
  repeat' split
  all_goals simp_all
  omega

/-- A code is always read as one of the five classes. -/
theorem classify_isCode (c : CodeCtx) (code : Code) : isCode (classify c code) = true := by
  rcases classify_cases c code with ⟨_, h⟩ | ⟨_, _, h⟩ | ⟨_, _, _, h⟩ | ⟨_, _, _, h⟩ | ⟨_, _, _, h⟩ <;> rw [h] <;> rfl

/-- What a step that answers a next state has done. -/
theorem step_cases {s t : State} (h : step s = .next t) :
    (∃ i u, nextTurn s = .run i u ∧ exec i u = .next t) ∨ nextTurn s = .settle t := by
  unfold step at h
  split at h
  · exact .inl ⟨_, _, ‹_›, h⟩
  · refine .inr ?_
    cases h
    assumption
  · cases h

end Sys2Proof.Machine
end

