-- ==== Sys2Proof/Laws/Invariant.lean ====
section
/-! SUPPORT. What the shared operations do to the invariants of Safety.lean: `Clear()` establishes them, growth and the fetch
keep them, and in a run every slot that is read holds a non-empty sequence. -/

namespace Sys2Proof.Machine

theorem bitlen_eq {n w : Nat} (hw : 1 ≤ w) (h1 : 2 ^ (w - 1) ≤ n) (h2 : n < 2 ^ w) : bitlen n = w := by
  have hn : n ≠ 0 := by
    have := Nat.two_pow_pos (w - 1)
    omega
  have hl : Nat.log2 n = w - 1 := by
    rw [Nat.log2_eq_iff hn]
    exact ⟨h1, by rwa [Nat.sub_add_cancel hw]⟩
  rw [bitlen, if_neg hn]
  omega

theorem bitlen_bounds {n : Nat} (hn : n ≠ 0) : 2 ^ (bitlen n - 1) ≤ n ∧ n < 2 ^ bitlen n := by
  rw [bitlen, if_neg hn]
  simpa using (Nat.log2_eq_iff (k := Nat.log2 n) hn).mp rfl

theorem symbolsBelow_append {b : Nat} {l m : List Symbol} :
    SymbolsBelow b (l ++ m) ↔ SymbolsBelow b l ∧ SymbolsBelow b m := by
  simp [SymbolsBelow, or_imp, forall_and]

/-- `Clear()` establishes I1 to I4 (10_state.md R31). -/
theorem widthInv_clear {s : State} (h : mincsLegal s.mincs = true) : WidthInv (clear s) := by
  obtain ⟨hd, hc, -⟩ := clear_toNat h
  have hb := clearOf_bounds h
  have hm := (mincsLegal_iff _).mp h
  have hlt : clearOf s.mincs + 2 < 2 ^ (s.mincs.toNat + 1) := by
    simp only [pow_succ]
    unfold clearOf at *
    omega
  have hbl : bitlen (clearOf s.mincs + 2) = s.mincs.toNat + 1 :=
    bitlen_eq (by omega) (by simp [clearOf]) hlt
  unfold WidthInv
  rw [hd, hc, hbl]
  simp only [clear_mincs, Config.dictCap, Config.maxCw, initialDlen, initialCw]
  exact ⟨h, le_refl _, by omega, le_refl _, by omega, by omega, .inl hlt⟩

/-- `Clear()` establishes I1 to I6, and I7 and I8 are as before (10_state.md R31). -/
theorem runInv_clear {s : State} (h : mincsLegal s.mincs = true) (hs : StreamInv s) : RunInv (clear s) := by
  obtain ⟨hd, -, hp⟩ := clear_toNat h
  refine ⟨widthInv_clear h, .inl hp, ?_, hs⟩
  have hb := clearOf_bounds h
  unfold DictInv
  rw [hd]
  simp only [clear_mincs, clear_dict, sparseGet_clearedDict, initialDlen]
  refine ⟨fun c hc => by simp [hc], by simp, by simp [eoiOf], fun c h1 h2 => by omega, fun c hc => ?_⟩
  unfold eoiOf
  rw [if_neg (by omega), if_neg (by omega), if_neg (by omega)]

/-- An accepted START establishes the run's invariant (43_host_commands.md R90, 10_state.md R31). -/
theorem runInv_beginRun {s : State} (h : mincsLegal s.mincs = true) : RunInv (beginRun s) :=
  runInv_clear (s := { s with out := [], outlen := 0, bitpos := 0, err := .none, status := .run }) h
    ⟨by simp, rfl, by simp [SymbolsBelow]⟩

/-- Growth keeps I1 to I4 (10_state.md R31, "Why I3 and I4 hold"). -/
theorem widthInv_grow {s : State} (l : List Symbol) (hw : WidthInv s) (h : s.dlen.toNat < 4096) : WidthInv (grow l s) := by
  obtain ⟨h1, h2, h3, h4, h5, h6, h7⟩ := hw
  have hb := clearOf_bounds h1
  simp only [Config.maxCw, Config.dictCap, initialDlen, initialCw] at *
  have hlt : s.dlen.toNat < 2 ^ s.cw.toNat := by omega
  have hbl := bitlen_bounds (n := s.dlen.toNat) (by omega)
  have hcw : bitlen s.dlen.toNat = s.cw.toNat := by
    rcases Nat.lt_or_ge 12 (bitlen s.dlen.toNat) with hh | hh
    · have : 2 ^ 12 ≤ 2 ^ (bitlen s.dlen.toNat - 1) := Nat.pow_le_pow_right (by norm_num) (by omega)
      omega
    · omega
  rw [hcw] at hbl
  have h12 : s.cw.toNat = 12 → 2 ^ s.cw.toNat = 4096 := fun e => by
    rw [e]
    norm_num
  unfold WidthInv
  rw [grow_dlen_toNat l h, grow_mincs, grow_cw, grownCw_toNat]
  simp only [Config.maxCw, Config.dictCap, initialDlen, initialCw]
  refine ⟨h1, by omega, by omega, by split <;> omega, by split <;> omega, ?_, ?_⟩
  · split
    · rw [bitlen_eq (w := s.cw.toNat + 1) (by omega) (by simp; omega) (by rw [pow_succ]; omega)]
      omega
    · rcases Nat.lt_or_ge (s.dlen.toNat + 1) (2 ^ s.cw.toNat) with hx | hx
      · rw [bitlen_eq (w := s.cw.toNat) (by omega) (by omega) hx]
        omega
      · have := h12 (by omega)
        rw [bitlen_eq (w := 13) (by omega) (by norm_num; omega) (by norm_num; omega)]
        omega
  · split
    · left
      rw [pow_succ]
      omega
    · rcases Nat.lt_or_ge (s.dlen.toNat + 1) (2 ^ s.cw.toNat) with hx | hx
      · exact .inl hx
      · have := h12 (by omega)
        right
        omega

/-- 10_state.md R28: a slot in use other than `CLEAR` and `EOI` holds a non-empty sequence of symbols below `CLEAR`. -/
theorem entry_of_inv {s : State} (hd : DictInv s) (hl : mincsLegal s.mincs = true) {c : Nat} (h1 : c < s.dlen.toNat)
    (h2 : c ≠ clearOf s.mincs) (h3 : c ≠ eoiOf s.mincs) :
    ∃ l, sparseGet s.dict c = some (.seq l) ∧ l ≠ [] ∧ l.length ≤ c - clearOf s.mincs + 1
      ∧ (clearOf s.mincs ≤ c → l.length ≤ c - clearOf s.mincs) ∧ SymbolsBelow (clearOf s.mincs) l := by
  obtain ⟨d1, -, -, d4, -⟩ := hd
  have hb := clearOf_bounds hl
  by_cases hc : c < clearOf s.mincs
  · refine ⟨_, d1 c hc, by simp, by simp, by omega, fun k hk => ?_⟩
    obtain rfl := List.mem_singleton.mp hk
    rw [BitVec.toNat_ofNat, Nat.mod_eq_of_lt (by omega)]
    exact hc
  · obtain ⟨l, e1, e2, e3, e4⟩ := d4 c (by unfold initialDlen; unfold eoiOf at h3; omega) h1
    exact ⟨l, e1, by rintro rfl; simp at e2, by omega, fun _ => e3, e4⟩

/-- Growth by an entry within the bounds of I6 keeps I6 (10_state.md R31). -/
theorem dictInv_grow {s : State} {l : List Symbol} (hw : WidthInv s) (hd : DictInv s) (h : s.dlen.toNat < 4096)
    (h2 : 2 ≤ l.length) (h3 : l.length ≤ s.dlen.toNat - clearOf s.mincs) (h4 : SymbolsBelow (clearOf s.mincs) l) :
    DictInv (grow l s) := by
  obtain ⟨d1, d2, d3, d4, d5⟩ := hd
  have hge := hw.2.1
  unfold initialDlen at hge
  unfold DictInv
  rw [grow_dlen_toNat l h]
  simp only [grow_mincs, grow_dict]
  refine ⟨fun c hc => ?_, ?_, ?_, fun c hc1 hc2 => ?_, fun c hc => ?_⟩
  · rw [sparseGet_set_other _ _ (by omega)]
    exact d1 c hc
  · rw [sparseGet_set_other _ _ (by omega)]
    exact d2
  · rw [sparseGet_set_other _ _ (by unfold eoiOf; omega)]
    exact d3
  · by_cases he : c = s.dlen.toNat
    · subst he
      exact ⟨l, by simp, h2, h3, h4⟩
    · rw [sparseGet_set_other _ _ he]
      exact d4 c hc1 (by omega)
  · rw [sparseGet_set_other _ _ (by omega)]
    exact d5 c (by omega)

/-- A fetch that succeeds keeps the run's invariant, I7 because the bound was checked. -/
theorem runInv_advance {s : State} (hi : RunInv s) (hp : pastEnd s = false) : RunInv (advance s) := by
  obtain ⟨hw, hpv, hd, -, hs2, hs3⟩ := hi
  refine ⟨hw, hpv, hd, ?_, hs2, hs3⟩
  rw [advance_bitpos_toNat hp]
  exact (pastEnd_eq_false s).mp hp

end Sys2Proof.Machine
end

