-- ==== Sys2Proof/Laws/PerInstr.lean ====
section
/-! SUPPORT. Statements made instruction by instruction. `EncodingForm`: a code is encoded in exactly `CW` bits
(30_encoding.md R51), a host command as a transaction (30_encoding.md R57). -/

namespace Sys2Proof.Laws.EncodingForm

open Sys2Proof.Machine

/-- The form of an operation's encoding, whatever the registers. -/
def Statement (i : Instr) : Prop :=
  ∀ c : CodeCtx, if isCode i then ∃ bits, encode c i = .code bits ∧ bits.length = c.cw.toNat else ∃ t, encode c i = .cmd t

theorem clr : Statement .clr := fun _ => ⟨_, rfl, bitsOf_length ..⟩

theorem eoi : Statement .eoi := fun _ => ⟨_, rfl, bitsOf_length ..⟩

theorem known (code : Code) : Statement (.known code) := fun _ => ⟨_, rfl, bitsOf_length ..⟩

theorem next (code : Code) : Statement (.next code) := fun _ => ⟨_, rfl, bitsOf_length ..⟩

theorem bad (code : Code) : Statement (.bad code) := fun _ => ⟨_, rfl, bitsOf_length ..⟩

theorem start : Statement .start := fun _ => ⟨_, rfl⟩

theorem rst : Statement .rst := fun _ => ⟨_, rfl⟩

theorem wrreg (n : Nat) (v : RegValue) : Statement (.wrreg n v) := fun _ => ⟨_, rfl⟩

theorem rdreg (n : Nat) : Statement (.rdreg n) := fun _ => ⟨_, rfl⟩

theorem load (a : BitVec 32) (b : Byte) : Statement (.load a b) := fun _ => ⟨_, rfl⟩

theorem drain (i : Nat) : Statement (.drain i) := fun _ => ⟨_, rfl⟩

end Sys2Proof.Laws.EncodingForm
end

