-- ==== Sys2Proof/Tests/Slice0.lean ====
section
/-! SUPPORT. The model's own tests. Expected results are the spec's worked examples and vectors (95_test_vectors.md and the
rules named), or hand calculation from them; then one theorem per obligation with hypotheses that shows a state and operands
meeting them. -/

namespace Sys2Proof.Tests

open Sys2Proof.Machine

/-! ### helpers -/

/-- The state a step or an operation answers. -/
def after (o : Host.Outcome State Fault Refusal) : Option State :=
  match o with
  | .next s => some s
  | .fault _ => none
  | .refused _ => none

/-- Idle, `MINCS = 2`, and `IN = 44 02 05`, the payload of vector V2. -/
def idle2 : State :=
  { State.reset with mincs := 2, inlen := 3, input := [(0, 0x44), (1, 0x02), (2, 0x05)] }

/-- The run of V2 just started (95_test_vectors.md P1, row START). -/
def run2 : State := beginRun idle2

/-- A run with `MINCS = 2` and three grown entries' worth of registers, for worked examples. -/
def midRun (dlen : BitVec 13) (cw : BitVec 4) (prev : BitVec 12) (dict : Dict) : State :=
  { run2 with dlen := dlen, cw := cw, prev := prev, dict := run2.dict ++ dict }

/-- The registers of a code with `MINCS = 2`. -/
def ctx2 (dlen : BitVec 13) (cw : BitVec 4) : CodeCtx := ⟨2, dlen, cw⟩

/-- A run with `MINCS = 11` and a full dictionary, the roots and the last entry listed. -/
def fullRun : State :=
  { run2 with mincs := 11, dlen := 4096, cw := 12, prev := 0, dict := [(0, .seq [0]), (4095, .seq [0, 0])] }

/-! ### well-formedness: one ill-formed term per check (30_encoding.md R53, R57) -/

theorem test_wf_clr_mincs : Instr.clr.wellFormed ⟨1, 6, 3⟩ = false := by decide
theorem test_wf_eoi_dlen_low : Instr.eoi.wellFormed ⟨2, 5, 3⟩ = false := by decide
theorem test_wf_eoi_dlen_high : Instr.eoi.wellFormed ⟨2, 4097, 12⟩ = false := by decide
theorem test_wf_clr_cw_low : Instr.clr.wellFormed ⟨3, 10, 3⟩ = false := by decide
theorem test_wf_clr_cw_high : Instr.clr.wellFormed ⟨2, 6, 13⟩ = false := by decide
theorem test_wf_clr_dlen_over_cw : Instr.clr.wellFormed ⟨2, 8, 3⟩ = false := by decide
theorem test_wf_known_clear : (Instr.known 4).wellFormed (ctx2 7 3) = false := by decide
theorem test_wf_known_eoi : (Instr.known 5).wellFormed (ctx2 7 3) = false := by decide
theorem test_wf_known_beyond : (Instr.known 7).wellFormed (ctx2 7 3) = false := by decide
theorem test_wf_next_other : (Instr.next 6).wellFormed (ctx2 7 3) = false := by decide
theorem test_wf_next_full : (Instr.next 0).wellFormed ⟨11, 4096, 12⟩ = false := by decide
theorem test_wf_bad_is_next : (Instr.bad 7).wellFormed (ctx2 7 3) = false := by decide
theorem test_wf_bad_too_wide : (Instr.bad 8).wellFormed (ctx2 6 3) = false := by decide
theorem test_wf_wrreg_start : (Instr.wrreg 0 1).wellFormed (ctx2 6 3) = false := by decide
theorem test_wf_wrreg_rst : (Instr.wrreg 0 2).wellFormed (ctx2 6 3) = false := by decide

/-! ### decoding: words written out from the encodings -/

/-- V5, `MINCS = 8`: `256/9` is `CLR`; bytes `00 FF`, bit 8 is 1. -/
theorem test_decode_clr :
    decodeBits ⟨8, 258, 9⟩ [false, false, false, false, false, false, false, false, true] = .ok (.clr, []) := by decide
/-- V5: `257/9` is `EOI`. -/
theorem test_decode_eoi :
    decodeBits ⟨8, 261, 9⟩ [true, false, false, false, false, false, false, false, true] = .ok (.eoi, []) := by decide
/-- V5: `258/9` with `DLEN = 259` is `KNOWN`. -/
theorem test_decode_known :
    decodeBits ⟨8, 259, 9⟩ [false, true, false, false, false, false, false, false, true] = .ok (.known 258, []) := by decide
/-- V5: `260/9` with `DLEN = 260` is `NEXT`. -/
theorem test_decode_next :
    decodeBits ⟨8, 260, 9⟩ [false, false, true, false, false, false, false, false, true] = .ok (.next 260, []) := by decide
/-- P4: `13/4` with `DLEN = 12` is `BAD`. -/
theorem test_decode_bad : decodeBits ⟨3, 12, 4⟩ [true, false, true, true] = .ok (.bad 13, []) := by decide
/-- Fewer than `CW` bits: rejected by name, although 11 exist (20_memory.md R38, B6). -/
theorem test_decode_truncated : decodeBits ⟨11, 2050, 12⟩ (List.replicate 11 true) = .error .truncated := by decide
theorem test_decode_bad_width : decodeBits ⟨2, 6, 13⟩ (List.replicate 20 true) = .error .badWidth := by decide
/-- 30_encoding.md R57: `START` match `0b01` mask `0b11`, bits 63:2 ignored. -/
theorem test_decode_start : decodeCmd (.write 0 0xFFFFFFFFFFFFFFFD#64) = .start := by decide
/-- 30_encoding.md R57: `RST` match `0b10` mask `0b10`; both bits set is RST alone. -/
theorem test_decode_rst : decodeCmd (.write 0 3#64) = .rst := by decide
theorem test_decode_wrreg : decodeCmd (.write 1 2#64) = .wrreg 1 2#64 ∧ decodeCmd (.write 0 4#64) = .wrreg 0 4#64 := by decide
theorem test_decode_rdreg : decodeCmd (.read 3) = .rdreg 3 := by decide
theorem test_decode_load : decodeCmd (.load 2 0x05) = .load 2 0x05 := by decide
theorem test_decode_drain : decodeCmd (.drain 1) = .drain 1 := by decide
theorem test_table_words : decodeTableWord 8 1 = some .start ∧ decodeTableWord 8 2 = some .rst := by decide
/-- 30_encoding.md R59: `MINCS=2: 4/3 0/3 1/3 1/3 0/4 5/4` packs to `44 02 05`. -/
theorem test_pack_v2 :
    packBits (bitsOfItems [(4, 3), (0, 3), (1, 3), (1, 3), (0, 4), (5, 4)]) = [0x44, 0x02, 0x05] := by decide
/-- V5: nine-bit codes pack to `00 FF 01 10 48 30 20`. -/
theorem test_pack_v5 :
    packBits (bitsOfItems [(256, 9), (255, 9), (0, 9), (258, 9), (260, 9), (257, 9)])
      = [0x00, 0xFF, 0x01, 0x10, 0x48, 0x30, 0x20] := by decide

/-! ### the bit reader (95_test_vectors.md, series B) -/

/-- The buffer of the B vectors. -/
def bState : State := { State.reset with inlen := 3, input := [(0, 0xB5), (1, 0x3C), (2, 0xF0)] }

theorem test_bits_B1_B2 : readBits bState 0 3 = some 5 ∧ readBits bState 3 4 = some 6 := by decide
theorem test_bits_B3_B4 : readBits bState 7 12 = some 0x079 ∧ readBits bState 5 12 = some 0x1E5 := by decide
theorem test_bits_B5_B6 : readBits bState 12 12 = some 0xF03 ∧ readBits bState 13 12 = none := by decide
theorem test_bits_B8_B9 : readBits bState 21 3 = some 7 ∧ readBits bState 22 3 = none := by decide

/-! ### the step -/

/-- P1 step 1: `4/3`, `CLR`; `BITPOS` moves by 3. -/
theorem test_step_fetches :
    (after (step run2)).map (fun t => (t.bitpos, t.cw, t.dlen, t.prev, t.out)) = some (3, 3, 6, 4, []) := by decide
/-- P1 step 6: `5/4` at bit 16 is `EOI`; `BITPOS = 20`, `DONE`. -/
theorem test_step_ends :
    (after (step { midRun 9 4 0 [] with bitpos := 16 })).map (fun t => (t.bitpos, t.status, t.err))
      = some (20, .done, .none) := by decide
/-- V15: an empty payload faults at the first fetch, `BITPOS` not advanced. -/
theorem test_step_empty_payload :
    (after (step { run2 with inlen := 0 })).map (fun t => (t.bitpos, t.status, t.err))
      = some (0, .fault, .unexpectedEndOfStream) := by decide
/-- V10: `7/3` is `BAD`; `BITPOS` stays advanced. -/
theorem test_step_bad :
    (after (step { run2 with bitpos := 6, prev := 0, input := [(0, 0xC4), (1, 0x01)] })).map
      (fun t => (t.bitpos, t.status, t.err, t.dlen)) = some (9, .fault, .invalidLzwCode, 6) := by decide
/-- A hardware reset keeps nothing of the configuration (10_state.md R32). -/
theorem test_step_hard_reset :
    (after (step { run2 with agenda := [.hardReset] })).map (fun t => (t.status, t.mincs, t.inlen, t.input))
      = some (.idle, 0, 0, []) := by decide
/-- The first step after reset runs the placed word; `MINCS = 0`, so START faults (95_test_vectors.md P5, row 3). -/
theorem test_first_step_start :
    (after (step (State.reset.withFetchWord 8 1))).map (fun t => (t.status, t.err))
      = some (.fault, .invalidMinCodeSize) := by decide
theorem test_first_step_rst : (after (step (State.reset.withFetchWord 8 2))).map (fun t => t.status) = some .idle := by decide

/-! ### the operations -/

/-- 41_control_codes.md R72: from `DLEN = 8`, `CW = 4`, `PREV = 2`; slots 6 and 7 unassigned, `OUT` unchanged. -/
theorem test_clr :
    (after (exec .clr { midRun 8 4 2 [(6, .seq [0, 1]), (7, .seq [1, 2])] with out := [0, 1, 2] })).map
      (fun t => (t.dlen, t.cw, t.prev, sparseGet t.dict 6, t.out)) = some (6, 3, 4, none, [0, 1, 2]) := by decide
/-- 41_control_codes.md R74: slot `CLEAR` holds `<>`, slot `EOI` is invalid. -/
theorem test_clr_special_slots :
    (after (exec .clr run2)).map (fun t => (sparseGet t.dict 4, sparseGet t.dict 5)) = some (some (.seq []), some .invalid) := by
  decide
theorem test_eoi : (after (exec .eoi run2)).map (fun t => (t.status, t.err, t.prev)) = some (.done, .none, 4) := by decide
/-- 42_data_codes.md R80: `1/3` after `0`: emit `<1>`, `DICT[6] <- <0, 1>`, `CW` stays 3. -/
theorem test_known :
    (after (exec (.known 1) { midRun 6 3 0 [] with out := [0], outlen := 1 })).map
      (fun t => (t.out, sparseGet t.dict 6, t.dlen, t.cw, t.prev))
      = some ([0, 1], some (.seq [0, 1]), 7, 3, 1) := by decide
/-- 40_fetch_and_width.md R67: the growth that makes `DLEN = 8` widens `CW` to 4 (P1 step 4). -/
theorem test_known_widens :
    (after (exec (.known 1) (midRun 7 3 1 [(6, .seq [0, 1])]))).map (fun t => (sparseGet t.dict 7, t.dlen, t.cw))
      = some (some (.seq [1, 1]), 8, 4) := by decide
/-- 42_data_codes.md R82: `6/3` after `1`: `DICT[6] <- <1, 1>`, emitted. -/
theorem test_next :
    (after (exec (.next 6) (midRun 6 3 1 []))).map (fun t => (t.out, t.outlen, sparseGet t.dict 6, t.dlen, t.prev))
      = some ([1, 1], 2, some (.seq [1, 1]), 7, 6) := by decide
/-- V11: `NEXT` straight after a clear faults; nothing emitted or added. -/
theorem test_next_after_clear :
    (after (exec (.next 6) run2)).map (fun t => (t.status, t.err, t.out, t.dlen, t.prev))
      = some (.fault, .invalidLzwCode, [], 6, 4) := by decide
/-- 42_data_codes.md R84. -/
theorem test_bad : (after (exec (.bad 7) run2)).map (fun t => (t.status, t.err)) = some (.fault, .invalidLzwCode) := by decide
/-- 43_host_commands.md R90: `MINCS = 8`: `DLEN = 258`, `CW = 9`, `PREV = 256`, `STATUS = RUN`. -/
theorem test_start :
    (after (exec .start { State.reset with mincs := 8, inlen := 7 })).map (fun t => (t.dlen, t.cw, t.prev, t.status))
      = some (258, 9, 256, .run) := by decide
/-- V16: `MINCS = 12` is refused and nothing else changes. -/
theorem test_start_refused :
    (after (exec .start { idle2 with mincs := 12, bitpos := 9 })).map (fun t => (t.status, t.err, t.bitpos, t.dlen))
      = some (.fault, .invalidMinCodeSize, 9, 0) := by decide
/-- V20: RST after V2: zeros, `MINCS`, `INLEN` and `IN` kept. -/
theorem test_rst :
    (after (exec .rst { midRun 9 4 0 [] with status := .done, out := [0, 1, 1, 0], outlen := 4 })).map
      (fun t => (t.status, t.out, t.dlen, t.mincs, t.inlen)) = some (.idle, [], 0, 2, 3) := by decide
/-- 43_host_commands.md R88: `WRREG 1, 0x102` stores 2. -/
theorem test_wrreg : (after (exec (.wrreg 1 0x102) State.reset)).map (fun t => t.mincs) = some 2 := by decide
/-- V21: writes are ignored during a run. -/
theorem test_wrreg_run : after (exec (.wrreg 2 0) run2) = some run2 ∧ after (exec (.wrreg 0 1) run2) = some run2 := by decide
/-- P5 row 11: `RDREG 6` after V2 is 20, `RDREG 3` is 2. -/
theorem test_rdreg :
    (after (exec (.rdreg 6) { midRun 9 4 0 [] with bitpos := 20 })).map (fun t => t.answers) = some [.reg 20]
      ∧ (after (exec (.rdreg 3) { run2 with status := .done })).map (fun t => t.answers) = some [.reg 2] := by decide
/-- P5 row 6. -/
theorem test_load :
    (after (exec (.load 1 0x02) State.reset)).map (fun t => (byteAt t 1, t.status)) = some (0x02, .idle) := by decide
/-- The canonical form: a byte loaded below another stands before it. -/
theorem test_load_order :
    (after (exec (.load 0 0x44) { State.reset with input := [(1, 2)] })).map (fun t => t.input) = some [(0, 0x44), (1, 2)] := by
  decide
/-- P5 row 12: `DRAIN 1` is 1, and `OUT` is not consumed. -/
theorem test_drain :
    (after (exec (.drain 1) { run2 with out := [0, 1, 1, 0], outlen := 4 })).map (fun t => (t.answers, t.out))
      = some ([.sym 1], [0, 1, 1, 0]) := by decide

/-! ### witnesses: states and operands that meet each obligation's hypotheses -/

theorem legal2 : mincsLegal idle2.mincs = true := by decide

theorem run2_runInv : RunInv run2 := runInv_beginRun legal2

theorem run2_inv : Inv run2 :=
  ⟨by decide, clearedDict_wf legal2, rfl, by decide, fun _ => run2_runInv⟩

/-- The accepted START of `idle2` is `run2`. -/
theorem idle2_starts : exec .start idle2 = .next run2 := by
  have h := startCommand_accepted idle2 (by decide) legal2
  simp only [exec, execStart, h, run2]

/-- The first step of `run2`: the `CLR` at bit 0. -/
theorem run2_steps : step run2 = .next (clear (advance run2)) := by
  have h : nextTurn run2 = .run .clr (advance run2) := by decide
  simp only [step, h, exec, execClr]
  rfl

/-- StepRunsTheFetchedCode, at the last three bits of the payload: `0/3`. -/
theorem witness_fetched_code :
    ∃ s : State, s.status = .run ∧ s.bitpos.toNat + s.cw.toNat = 8 * s.inlen.toNat
      ∧ decodeBits (codeCtx s) (bitsAt s s.bitpos.toNat s.cw.toNat) = .ok (.known 0, []) ∧ s.agenda = [] :=
  ⟨{ run2 with bitpos := 21 }, by decide⟩
theorem witness_fetched_code_core :
    ∃ s : State, s.status = .run ∧ s.bitpos.toNat + s.cw.toNat ≤ 8 * s.inlen.toNat
      ∧ decodeBits (codeCtx s) (bitsAt s s.bitpos.toNat s.cw.toNat) = .ok (.clr, []) ∧ s.agenda = [.core] :=
  ⟨{ run2 with agenda := [.core] }, by decide⟩
theorem witness_host_command : ({ run2 with agenda := [.host (.read 3)] } : State).agenda = .host (.read 3) :: [] := rfl
theorem witness_placed_word : decodeTableWord 8 1 = some .start := by decide
/-- FetchPastEndFaults, one bit short. -/
theorem witness_past_end :
    ∃ s : State, s.status = .run ∧ CoreTurn s ∧ s.bitpos.toNat + s.cw.toNat = 8 * s.inlen.toNat + 1 :=
  ⟨{ run2 with bitpos := 22 }, rfl, .inl rfl, by decide⟩
/-- CoreIsStillOutsideRun and EndedRunStaysAsItIs. -/
theorem witness_outside_run : idle2.status ≠ .run ∧ CoreTurn idle2 ∧ ∀ m ∈ idle2.agenda, m = .core :=
  ⟨by decide, .inl rfl, by decide⟩
theorem witness_core_move : ({ idle2 with agenda := [.core] } : State).status ≠ .run
    ∧ CoreTurn { idle2 with agenda := [.core] } ∧ ∀ m ∈ [Move.core], m = .core :=
  ⟨by decide, .inr ⟨[], rfl⟩, by decide⟩
theorem witness_hard_reset : ({ run2 with agenda := [.hardReset] } : State).agenda = .hardReset :: [] := rfl
/-- EveryStepKeepsTheInvariant, CoreStepKeepsRunInvariant, CoreStepMovesOnOrEnds, EveryRunEnds. -/
theorem witness_run_step :
    Inv run2 ∧ run2.status = .run ∧ RunInv run2 ∧ CoreTurn run2 ∧ run2.agenda = [] ∧ step run2 = .next (clear (advance run2)) :=
  ⟨run2_inv, rfl, run2_runInv, .inl rfl, rfl, run2_steps⟩
/-- OnlyLoadIntoRunningPayloadStops, both outcomes. -/
theorem witness_refused_load :
    Inv { run2 with agenda := [.host (.load 2 0)] } ∧ step { run2 with agenda := [.host (.load 2 0)] } = .refused .loadDuringRun :=
  ⟨run2_inv, by
    rw [step, nextTurn_host rfl]
    exact (execLoad_eq ..).trans (if_pos (by decide))⟩
/-- GrownEntriesExtendEarlierOnes. -/
theorem witness_prefix : Inv run2 ∧ (run2.status = .run → PrefixInv run2) ∧ step run2 = .next (clear (advance run2))
    ∧ (clear (advance run2)).status = .run :=
  ⟨run2_inv, fun _ c h1 h2 => absurd (show c < 6 from h2) (by have : 6 ≤ c := h1; omega), run2_steps, rfl⟩
/-- EncodedOperationDecodes, one well-formed operation per constructor. -/
theorem witness_encoded :
    ([.clr, .eoi, .known 3, .known 6, .next 7, .start, .rst, .wrreg 0 4, .wrreg 1 2, .rdreg 9, .load 0 1, .drain 0] : List Instr).all
      (fun i => i.wellFormed (ctx2 7 3)) = true ∧ (Instr.bad 7).wellFormed (ctx2 6 3) = true := by decide
/-- DecodedCodeEncodesBack, CodeClassesAreRanges. -/
theorem witness_legal : (ctx2 6 3).legal = true ∧ [true, true, true].length = (ctx2 6 3).cw.toNat := by decide
/-- The boundary values of CodeClassesAreRanges: 3, 4, 5, 6 (with `DLEN = 7`), 7, 8. -/
theorem witness_ranges :
    (ctx2 7 4).legal = true
      ∧ [3, 4, 5, 6, 7, 8].map (fun c => classify (ctx2 7 4) c) = [.known 3, .clr, .eoi, .known 6, .next 7, .bad 8] := by decide
/-- FullCodeSpaceLeavesOutBad, both clauses at the top of their range. -/
theorem witness_full_space :
    (CodeCtx.legal ⟨11, 4096, 12⟩ = true ∧ (4095#12).toNat < 2 ^ (12#4).toNat)
      ∧ (ctx2 7 3).legal = true ∧ (7#12).toNat < 2 ^ (3#4).toNat ∧ (7#13).toNat = 2 ^ (3#4).toNat - 1 := by decide
/-- ReadBitsFromThreeBytes, at the payload's last 12 bits (B5). -/
theorem witness_three_bytes : 12 ≤ 12 ∧ 12 + 12 ≤ 8 * bState.inlen.toNat := by decide
/-- ClrClears and StartBeginsARun, at both ends of the range of `MINCS`. -/
theorem witness_mincs_bounds :
    (2 ≤ (2#8).toNat ∧ (2#8).toNat ≤ 11) ∧ (2 ≤ (11#8).toNat ∧ (11#8).toNat ≤ 11) ∧ idle2.status ≠ .run ∧ idle2.mincs = 2 := by
  decide
/-- RepeatedClrChangesNothing, both clauses. -/
theorem witness_repeated_clr :
    exec .clr run2 = .next (clear run2) ∧ idle2.status ≠ .run ∧ 2 ≤ idle2.mincs.toNat ∧ idle2.mincs.toNat ≤ 11
      ∧ exec .start idle2 = .next run2 :=
  ⟨rfl, by decide, by decide, by decide, idle2_starts⟩
/-- KnownEmitsWithoutGrowth: after a clear, and with a full dictionary. -/
theorem witness_known_without_growth :
    (sparseGet run2.dict (3#12).toNat = some (.seq [3]) ∧ [(3 : Symbol)] ≠ [] ∧ run2.prev.toNat = 2 ^ run2.mincs.toNat)
      ∧ sparseGet fullRun.dict (4095#12).toNat = some (.seq [0, 0]) ∧ 4096 ≤ fullRun.dlen.toNat
      ∧ fullRun.prev.toNat ≠ 2 ^ fullRun.mincs.toNat := by decide
/-- KnownEmitsAndGrows, without and with the widening. -/
theorem witness_known_grows :
    (sparseGet (midRun 6 3 0 []).dict (1#12).toNat = some (.seq [1]) ∧ (midRun 6 3 0 []).prev.toNat ≠ 2 ^ (2#8).toNat
        ∧ (midRun 6 3 0 []).dlen.toNat < 4096 ∧ sparseGet (midRun 6 3 0 []).dict 0 = some (.seq [0]))
      ∧ (midRun 7 3 1 []).dlen.toNat + 1 = 2 ^ (midRun 7 3 1 []).cw.toNat ∧ sparseGet (midRun 7 3 1 []).dict 1 = some (.seq [1]) := by
  decide
/-- NextAddsAndEmits, NextEmitsEqualEnds, DataCodeAddsAtMostOneEntry (NEXT). -/
theorem witness_next :
    ∃ t, exec (.next 6) (midRun 6 3 1 []) = .next t ∧ t.status = .run ∧ (midRun 6 3 1 []).prev.toNat ≠ 2 ^ (2#8).toNat
      ∧ (midRun 6 3 1 []).dlen.toNat < 4096 ∧ sparseGet (midRun 6 3 1 []).dict 1 = some (.seq [1]) :=
  ⟨setPrev 6 (emit [1, 1] (grow [1, 1] (midRun 6 3 1 []))), rfl, by decide, by decide, by decide, by decide⟩
/-- NextAfterClearFaults. -/
theorem witness_next_after_clear : run2.prev.toNat = 2 ^ run2.mincs.toNat := by decide
/-- DataCodesCompleteInARun: a root code, and the code equal to `DLEN`. -/
theorem witness_data_codes_complete :
    RunInv run2 ∧ ((3#12).toNat < run2.dlen.toNat ∧ (3#12).toNat ≠ clearOf run2.mincs ∧ (3#12).toNat ≠ eoiOf run2.mincs)
      ∧ (6#12).toNat = run2.dlen.toNat :=
  ⟨run2_runInv, by decide, by decide⟩
/-- DataCodeAddsAtMostOneEntry (KNOWN), CodesLeaveTheHostSide, CodesOnlyAppendOutput, ClrEoiKnownNeverFault, without growth;
and WidthGrowsByAtMostOne. -/
theorem witness_known_step :
    isCode (.known 3) = true ∧ Instr.known 3 ≠ .clr ∧ run2.status = .run ∧ run2.dlen.toNat ≤ 4096
      ∧ exec (.known 3) run2 = .next (setPrev 3 (emit [3] run2)) ∧ (setPrev 3 (emit [3] run2)).status = .run :=
  ⟨rfl, by decide, rfl, by decide, rfl, rfl⟩
/-- The clauses of CodesOnlyAppendOutput and ClrEoiKnownNeverFault for `CLR` and `EOI`. -/
theorem witness_clr_eoi_step : exec .clr run2 = .next (clear run2) ∧ exec .eoi run2 = .next (finish run2) ∧ run2.status ≠ .fault :=
  ⟨rfl, rfl, by decide⟩
/-- A run just before the growth that makes `DLEN = 8` (P1 step 4). -/
theorem midRun_widthInv : WidthInv (midRun 7 3 1 []) := by
  refine ⟨by decide, by decide, by decide, by decide, by decide, ?_, by decide⟩
  have h : bitlen (midRun 7 3 1 []).dlen.toNat = 3 := bitlen_eq (by decide) (by decide) (by decide)
  rw [h]
  decide
/-- WidthThresholds, `w = 3`. -/
theorem witness_threshold :
    ∃ t, isCode (.known 1) = true ∧ Instr.known 1 ≠ .clr ∧ WidthInv (midRun 7 3 1 [])
      ∧ exec (.known 1) (midRun 7 3 1 []) = .next t ∧ t.dlen ≠ (midRun 7 3 1 []).dlen ∧ t.dlen.toNat = 2 ^ 3 :=
  ⟨setPrev 1 (grow [1, 1] (emit [1] (midRun 7 3 1 []))), rfl, by decide, midRun_widthInv, rfl, by decide, by decide⟩
/-- FaultingCodeChangesNothingElse. -/
theorem witness_faulting_code :
    run2.status = .run ∧ exec (.bad 7) run2 = .next (raise .invalidLzwCode run2) ∧ (raise .invalidLzwCode run2).status = .fault :=
  ⟨rfl, rfl, rfl⟩
/-- ReadsAndLoadsLeaveTheCoreSide. -/
theorem witness_reads_and_loads :
    exec (.rdreg 3) idle2 = .next (answer (.reg 0) idle2) ∧ exec (.load 0 1) idle2 = .next (writeByte 0 1 idle2)
      ∧ exec (.drain 0) { run2 with out := [3], outlen := 1 } = .next (answer (.sym 3) { run2 with out := [3], outlen := 1 }) :=
  ⟨rfl, rfl, rfl⟩
/-- EmittedSymbolStays. -/
theorem witness_emitted_symbol :
    ∃ s : State, 0 < s.out.length ∧ step s = .next { s with agenda := [] } ∧ (∀ v rest, s.agenda ≠ .host (.write 0 v) :: rest)
      ∧ ∀ rest, s.agenda ≠ .hardReset :: rest :=
  ⟨{ idle2 with out := [1], outlen := 1, agenda := [.core] }, by decide, rfl, fun _ _ => by simp, fun _ => by simp⟩
/-- RunFreezesConfiguration, with a write that is ignored. -/
theorem witness_freeze :
    ∃ s : State, s.status = .run ∧ step s = .next { s with agenda := [] } ∧ (∀ rest, s.agenda ≠ .hardReset :: rest)
      ∧ 2 < s.inlen.toNat :=
  ⟨{ run2 with agenda := [.host (.write 1 8)] }, rfl, rfl, fun _ => by simp, by decide⟩
/-- BytesBeyondPayloadAreUnseen, with a byte added at `INLEN`. -/
theorem witness_beyond_payload :
    run2.status = .run ∧ CoreTurn run2
      ∧ ∀ a, a < run2.inlen.toNat → sparseGet (sparseSet run2.input 3 0xFF) a = sparseGet run2.input a :=
  ⟨rfl, .inl rfl, fun a h => sparseGet_set_other _ _ (by have : a < 3 := h; omega)⟩
/-- OnlyStartEntersRun; StartIsIgnoredDuringRun has `run2`. -/
theorem witness_start_enters_run :
    ∃ s t : State, s.status ≠ .run ∧ step s = .next t ∧ t.status = .run :=
  ⟨{ idle2 with agenda := [.host (.write 0 1)] }, run2, by decide, by
    rw [step, nextTurn_host rfl]
    exact idle2_starts, rfl⟩
/-- OnlyEoiEntersDone: P1 step 6. -/
theorem witness_eoi_enters_done :
    ∃ s t : State, s.status ≠ .done ∧ step s = .next t ∧ t.status = .done := by
  refine ⟨{ midRun 9 4 0 [] with bitpos := 16 }, finish (advance { midRun 9 4 0 [] with bitpos := 16 }), by decide, ?_, rfl⟩
  have h : nextTurn { midRun 9 4 0 [] with bitpos := 16 } = .run .eoi (advance { midRun 9 4 0 [] with bitpos := 16 }) := by decide
  rw [step, h]
  rfl
/-- OnlyCommandsLeaveDoneAndFault. -/
theorem witness_rst_leaves_done :
    ∃ s t : State, (s.status = .done ∨ s.status = .fault) ∧ step s = .next t ∧ t.status ≠ s.status :=
  ⟨{ idle2 with status := .done, agenda := [.host (.write 0 2)] }, softReset { idle2 with status := .done }, .inl rfl, rfl, by decide⟩
/-- StartRefusesIllegalMincs, on both sides of the range. -/
theorem witness_illegal_mincs : (State.reset.status ≠ .run) ∧ (1#8).toNat < 2 ∧ 11 < (12#8).toNat := by decide
/-- StartForgetsTheEarlierRun: two states that differ in what an earlier run left. -/
theorem witness_forgets :
    ∃ s r : State, s.status ≠ .run ∧ r.status ≠ .run ∧ 2 ≤ s.mincs.toNat ∧ s.mincs.toNat ≤ 11 ∧ r.mincs = s.mincs
      ∧ r.inlen = s.inlen ∧ r.input = s.input ∧ ModelSideSame s r ∧ r.out ≠ s.out ∧ r.dlen ≠ s.dlen :=
  ⟨idle2, { idle2 with status := .done, out := [1], outlen := 1, dlen := 9, cw := 4, bitpos := 20 }, by decide, by decide, by decide,
    by decide, rfl, rfl, rfl, ⟨rfl, rfl, rfl, rfl⟩, by decide, by decide⟩
/-- WrregWritesConfiguration: both statuses and the first read-only register. -/
theorem witness_wrreg : idle2.status ≠ .run ∧ run2.status = .run ∧ 3 ≤ 3 := by decide
/-- WrregCtrlIsACommand, its three clauses. -/
theorem witness_wrreg_ctrl :
    (3#64).getLsbD 1 = true ∧ ((1#64).getLsbD 1 = false ∧ (1#64).getLsbD 0 = true)
      ∧ (4#64).getLsbD 1 = false ∧ (4#64).getLsbD 0 = false := by decide
/-- LoadWritesOneByte; LoadDuringARun at the last payload byte and the first above it. -/
theorem witness_load :
    idle2.status ≠ .run ∧ run2.status = .run ∧ (2#32).toNat < run2.inlen.toNat ∧ run2.inlen.toNat ≤ (3#32).toNat := by decide
/-- DrainAnswersTheSymbol at the last position, DrainBeyondOutputCompletes at the first beyond it. -/
theorem witness_drain :
    ∃ s : State, s.outlen = s.out.length ∧ 0 < s.outlen ∧ s.outlen ≤ 1 :=
  ⟨{ run2 with out := [3], outlen := 1 }, by decide⟩
/-- MeaninglessStatesStop, its five clauses. -/
theorem witness_meaningless :
    sparseGet run2.dict (6#12).toNat = none ∧ sparseGet run2.dict (5#12).toNat = some .invalid
      ∧ sparseGet run2.dict (4#12).toNat = some (.seq []) ∧ fullRun.prev.toNat ≠ 2 ^ fullRun.mincs.toNat
      ∧ 4096 ≤ fullRun.dlen.toNat ∧ State.reset.mincs.toNat < 2 ∧ 11 < (12#8).toNat := by decide

end Sys2Proof.Tests
end

section
/-! SUPPORT. What one step, one code and one host command can do when they answer a next state, said once each, with one
named case per way it can go. -/

namespace Sys2Proof.Machine

/-! ### the step -/

/-- Reading a code does not depend on the script. -/
theorem fetchedCode_setAgenda (l : List Move) (s : State) : fetchedCode (setAgenda l s) = fetchedCode s := by
  unfold fetchedCode
  rw [bitsAt_congr (s := s) (t := setAgenda l s) _ _ fun a _ _ _ => byteAt_congr rfl rfl a]
  rfl

/-- The ways a step can go: the core's turn outside a run, past the payload's end, on a code, or with a width that has no
code; a host command; a hardware reset. Each acts in the state whose script has moved on. -/
inductive StepCase (s : State) : Prop where
  | still (hc : CoreTurn s) (hr : s.status ≠ .run) (h : step s = .next (setAgenda s.agenda.tail s))
  | pastEnd (hc : CoreTurn s) (hr : s.status = .run) (hp : pastEnd s = true)
      (h : step s = .next (raise .unexpectedEndOfStream (setAgenda s.agenda.tail s)))
  | code (hc : CoreTurn s) (hr : s.status = .run) (hp : pastEnd s = false) (hw : 3 ≤ s.cw.toNat ∧ s.cw.toNat ≤ 12)
      (h : step s = exec (classify (codeCtx s) (fetchedCode s)) (advance (setAgenda s.agenda.tail s)))
  | badWidth (hc : CoreTurn s) (hr : s.status = .run) (hw : ¬(3 ≤ s.cw.toNat ∧ s.cw.toNat ≤ 12))
      (h : step s = .fault .widthOutOfRange)
  | host (c : HostCmd) (rest : List Move) (ha : s.agenda = .host c :: rest)
      (h : step s = exec (decodeCmd c) (setAgenda s.agenda.tail s))
  | hardReset (rest : List Move) (ha : s.agenda = .hardReset :: rest)
      (h : step s = .next (hardwareReset (setAgenda s.agenda.tail s)))

theorem stepCase_of_coreTurn {s : State} (hc : CoreTurn s) : StepCase s := by
  have hn := nextTurn_coreTurn hc
  rcases coreTurn_cases (setAgenda s.agenda.tail s) with ⟨hr, ht⟩ | ⟨hr, hp, ht⟩ | ⟨hr, hp, hw, ht⟩ | ⟨hr, -, hw, ht⟩
  · exact .still hc hr (by rw [step, hn, ht])
  · exact .pastEnd hc hr hp (by rw [step, hn, ht])
  · exact .code hc hr hp hw (by rw [step, hn, ht, fetchedCode_setAgenda]; rfl)
  · exact .badWidth hc hr hw (by rw [step, hn, ht])

theorem stepCase (s : State) : StepCase s := by
  rcases ha : s.agenda with _ | ⟨_ | c | _, rest⟩
  · exact stepCase_of_coreTurn (.inl ha)
  · exact stepCase_of_coreTurn (.inr ⟨rest, ha⟩)
  · exact .host c rest ha (by rw [step, nextTurn_host ha, ha, List.tail_cons])
  · exact .hardReset rest ha (by rw [step, nextTurn_hardReset ha, ha, List.tail_cons])

theorem not_coreTurn_of_host {s : State} {c : HostCmd} {rest : List Move} (ha : s.agenda = .host c :: rest) :
    ¬CoreTurn s := by
  simp [CoreTurn, ha]

theorem not_coreTurn_of_hardReset {s : State} {rest : List Move} (ha : s.agenda = .hardReset :: rest) : ¬CoreTurn s := by
  simp [CoreTurn, ha]

/-! ### the codes -/

/-- The ways a code ends in a next state. The two data codes grow the dictionary alike, by the previous entry and one
symbol; they differ in what they emit (42_data_codes.md R80, R82). -/
inductive CodeCase (i : Instr) (s t : State) : Prop where
  | clear (hi : i = .clr) (hl : mincsLegal s.mincs = true) (ht : t = clear s)
  | finish (hi : i = .eoi) (ht : t = finish s)
  | emit (code : Code) (k : Symbol) (e : List Symbol) (hi : i = .known code) (he : lookup s code.toNat = .ok (k, e))
      (ht : t = setPrev code (emit e s))
  | grow (code : Code) (j k : Symbol) (p e : List Symbol) (hc : s.prev.toNat ≠ clearOf s.mincs)
      (hf : s.dlen.toNat < 4096) (hp : lookup s s.prev.toNat = .ok (j, p))
      (he : i = .known code ∧ lookup s code.toNat = .ok (k, e) ∨ i = .next code ∧ k = j ∧ e = p ++ [k])
      (ht : t = setPrev code (emit e (grow (p ++ [k]) s)))
  | raise (code : Code) (hi : i = .next code ∨ i = .bad code) (ht : t = raise .invalidLzwCode s)

theorem codeCase {i : Instr} {s t : State} (hi : isCode i = true) (h : exec i s = .next t) : CodeCase i s t := by
  cases i with
  | clr =>
    obtain ⟨hl, ht⟩ := execClr_cases h
    exact .clear rfl hl ht
  | eoi => exact .finish rfl (execEoi_cases h)
  | known code =>
    obtain ⟨k, l, hl, ⟨-, ht⟩ | ⟨hc, hf, j, p, hp, ht⟩⟩ := execKnown_cases h
    · exact .emit code k l rfl hl ht
    · exact .grow code j k p l ((prevIsClear_eq_false s).mp hc) ((dictFull_eq_false s).mp hf) hp (.inl ⟨rfl, hl⟩) ht
  | next code =>
    obtain ⟨-, ht⟩ | ⟨hc, hf, k, p, hp, ht⟩ := execNext_cases h
    · exact .raise code (.inl rfl) ht
    · exact .grow code k k p (p ++ [k]) ((prevIsClear_eq_false s).mp hc) ((dictFull_eq_false s).mp hf) hp
        (.inr ⟨rfl, rfl, rfl⟩) ht
  | bad code => exact .raise code (.inr rfl) (execBad_cases (code := code) h)
  | start | rst | wrreg | rdreg | load | drain => simp [isCode] at hi

/-! ### the class of a fetched code -/

theorem classify_eq_eoi {c : CodeCtx} {code : Code} (h : classify c code = .eoi) : code.toNat = eoiOf c.mincs := by
  rcases classify_cases c code with ⟨-, e⟩ | ⟨-, he, -⟩ | ⟨-, -, -, e⟩ | ⟨-, -, -, e⟩ | ⟨-, -, -, e⟩
  case inr.inl => exact he
  all_goals simp [e] at h

theorem classify_eq_known {c : CodeCtx} {code d : Code} (h : classify c code = .known d) :
    d = code ∧ code.toNat < c.dlen.toNat ∧ code.toNat ≠ clearOf c.mincs ∧ code.toNat ≠ eoiOf c.mincs := by
  rcases classify_cases c code with ⟨-, e⟩ | ⟨-, -, e⟩ | ⟨hc, he, hd, e⟩ | ⟨-, -, -, e⟩ | ⟨-, -, -, e⟩
  case inr.inr.inl => exact ⟨by simpa [e] using h.symm, hd, hc, he⟩
  all_goals simp [e] at h

theorem classify_eq_next {c : CodeCtx} {code d : Code} (h : classify c code = .next d) :
    d = code ∧ code.toNat = c.dlen.toNat ∧ code.toNat ≠ clearOf c.mincs ∧ code.toNat ≠ eoiOf c.mincs := by
  rcases classify_cases c code with ⟨-, e⟩ | ⟨-, -, e⟩ | ⟨-, -, -, e⟩ | ⟨hc, he, hd, e⟩ | ⟨-, -, -, e⟩
  case inr.inr.inr.inl => exact ⟨by simpa [e] using h.symm, hd, hc, he⟩
  all_goals simp [e] at h

/-- A code of `ReadBits` is fetched whole: at most 12 bits are read into a `Code`. -/
theorem readBits_eq_fetchedCode {s : State} (hp : pastEnd s = false) (hw : s.cw.toNat ≤ 12) :
    readBits s s.bitpos.toNat s.cw.toNat = some (fetchedCode s).toNat := by
  have hlt := assemble_lt (bitsAt s s.bitpos.toNat s.cw.toNat)
  rw [bitsAt_length] at hlt
  have hle : 2 ^ s.cw.toNat ≤ 2 ^ 12 := Nat.pow_le_pow_right (by norm_num) hw
  rw [readBits, if_neg (Nat.not_lt.mpr ((pastEnd_eq_false s).mp hp)), fetchedCode, BitVec.toNat_ofNat,
    Nat.mod_eq_of_lt (hlt.trans_le hle)]

/-! ### the host commands -/

/-- The ways a host transaction ends in a next state. A read, a drain and an ignored write differ from the state before at
most in what the host has received and in the count of free symbols. -/
inductive HostCase (c : HostCmd) (s t : State) : Prop where
  | reset (v : RegValue) (hc : c = .write 0 v) (h1 : v.getLsbD 1 = true) (ht : t = softReset s)
  | start (v : RegValue) (hc : c = .write 0 v) (h1 : v.getLsbD 1 = false) (h0 : v.getLsbD 0 = true)
      (ht : t = startCommand s)
  | mincs (m : BitVec 8) (hr : s.status ≠ .run) (ht : t = { s with mincs := m })
  | inlen (n : BitVec 32) (hr : s.status ≠ .run) (ht : t = { s with inlen := n })
  | load (a : BitVec 32) (b : Byte) (ht : t = writeByte a b s)
  | answered (l : List Answer) (n : Nat) (ht : t = { s with answers := l, draws := n })

theorem hostCase_of_write {n : Nat} {v : RegValue} {s t : State} (h : exec (decodeCmd (.write n v)) s = .next t) :
    HostCase (.write n v) s t := by
  simp only [decodeCmd] at h
  split at h
  · rename_i hc
    obtain ⟨rfl, h1⟩ := hc
    cases h
    exact .reset v rfl h1 rfl
  · rename_i hn1
    split at h
    · rename_i hc
      obtain ⟨rfl, h0⟩ := hc
      cases h
      exact .start v rfl (by simpa using hn1) h0 rfl
    · rename_i hn0
      cases h
      by_cases hn : n = 0
      · subst hn
        have hw : writeReg 0 v s = s := by
          simp only [true_and, Bool.not_eq_true] at hn1 hn0
          simp only [writeReg, hn1, hn0, if_true, Bool.false_eq_true, if_false]
        exact .answered s.answers s.draws hw
      · rcases writeReg_cases n v s with hw | ⟨h0, -⟩ | ⟨h0, -⟩ | ⟨hr, hw⟩ | ⟨hr, hw⟩
        · exact .answered s.answers s.draws hw
        · exact absurd h0 hn
        · exact absurd h0 hn
        · exact .mincs _ hr hw
        · exact .inlen _ hr hw

theorem hostCase {c : HostCmd} {s t : State} (h : exec (decodeCmd c) s = .next t) : HostCase c s t := by
  cases c with
  | write n v => exact hostCase_of_write h
  | read n =>
    cases h
    exact .answered _ _ rfl
  | load a b => exact .load a b (execLoad_cases h).2
  | drain i =>
    obtain ⟨k, -, ht⟩ | ⟨-, ht⟩ := execDrain_cases h
    · exact .answered _ _ ht
    · exact .answered _ _ ht

/-- A host transaction always completes, but for a `LOAD` into the running payload (log 6). -/
theorem exec_decodeCmd_completes (c : HostCmd) (s : State) :
    (∃ t, exec (decodeCmd c) s = .next t) ∨
      exec (decodeCmd c) s = .refused .loadDuringRun ∧ s.status = .run ∧ ∃ a b, c = .load a b ∧ a.toNat < s.inlen.toNat := by
  cases c with
  | write n v =>
    left
    simp only [decodeCmd]
    split
    · exact ⟨_, rfl⟩
    · split <;> exact ⟨_, rfl⟩
  | read n => exact .inl ⟨_, rfl⟩
  | load a b =>
    have he := execLoad_eq a b s
    by_cases hc : s.status = .run ∧ a.toNat < s.inlen.toNat
    · exact .inr ⟨by rwa [if_pos hc] at he, hc.1, a, b, rfl, hc.2⟩
    · exact .inl ⟨_, by rwa [if_neg hc] at he⟩
  | drain i =>
    left
    change ∃ t, execDrain i s = .next t
    unfold execDrain
    split <;> exact ⟨_, rfl⟩

end Sys2Proof.Machine
end

section
/-! SUPPORT. The invariants of Safety.lean under one code, one host command and one step; then the statements about every
step. -/

namespace Sys2Proof.Machine

/-! ### what the invariants depend on -/

@[simp] theorem runInv_setAgenda (l : List Move) (s : State) : RunInv (setAgenda l s) ↔ RunInv s := Iff.rfl

@[simp] theorem runInv_raise (e : ErrKind) (s : State) : RunInv (raise e s) ↔ RunInv s := Iff.rfl

@[simp] theorem runInv_finish (s : State) : RunInv (finish s) ↔ RunInv s := Iff.rfl

@[simp] theorem inv_setAgenda (l : List Move) (s : State) : Inv (setAgenda l s) ↔ Inv s := Iff.rfl

/-! ### what a run reads -/

/-- I1 to I4 bound the width of a fetch (20_memory.md R38). -/
theorem cw_bounds_of_widthInv {s : State} (hw : WidthInv s) : 3 ≤ s.cw.toNat ∧ s.cw.toNat ≤ 12 := by
  obtain ⟨hl, -, -, hlow, hhigh, -⟩ := hw
  have hm := (mincsLegal_iff _).mp hl
  simp only [initialCw, Config.maxCw] at hlow hhigh
  omega

/-- 10_state.md R28: in a run a slot in use other than `CLEAR` and `EOI` is looked up without a fault. -/
theorem lookup_of_runInv {s : State} (hi : RunInv s) {c : Nat} (h1 : c < s.dlen.toNat) (h2 : c ≠ clearOf s.mincs)
    (h3 : c ≠ eoiOf s.mincs) : ∃ k l, lookup s c = .ok (k, l) := by
  obtain ⟨⟨hl, -⟩, -, hd, -⟩ := hi
  obtain ⟨l, hg, hne, -⟩ := entry_of_inv hd hl h1 h2 h3
  obtain ⟨k, -, hk⟩ := lookup_seq hg hne
  exact ⟨k, l, hk⟩

/-- Only a slot in use other than `CLEAR` and `EOI` is looked up without a fault. -/
theorem range_of_lookup {s : State} (hd : DictInv s) {c : Nat} {k : Symbol} {l : List Symbol}
    (h : lookup s c = .ok (k, l)) : c < s.dlen.toNat ∧ c ≠ clearOf s.mincs ∧ c ≠ eoiOf s.mincs := by
  obtain ⟨-, hclear, heoi, -, hfree⟩ := hd
  obtain ⟨hg, hk⟩ := (lookup_eq_ok_iff ..).mp h
  refine ⟨Nat.lt_of_not_le fun hc => ?_, ?_, ?_⟩
  · simp [hfree c hc] at hg
  · rintro rfl
    rw [hclear] at hg
    cases hg
    simp at hk
  · rintro rfl
    simp [heoi] at hg

/-- What a lookup in a run gives: symbols below `CLEAR`, and no more of them than I6 allows. -/
theorem symbols_of_lookup {s : State} (hi : RunInv s) {c : Nat} {k : Symbol} {l : List Symbol}
    (h : lookup s c = .ok (k, l)) :
    l ≠ [] ∧ l.length + 1 ≤ s.dlen.toNat - clearOf s.mincs ∧ SymbolsBelow (clearOf s.mincs) l
      ∧ SymbolsBelow (clearOf s.mincs) [k] := by
  obtain ⟨⟨hl, hdlen, -⟩, -, hd, -⟩ := hi
  obtain ⟨h1, h2, h3⟩ := range_of_lookup hd h
  obtain ⟨hg, hk⟩ := (lookup_eq_ok_iff ..).mp h
  obtain ⟨m, hm, hne, hlen, hlen', hbelow⟩ := entry_of_inv hd hl h1 h2 h3
  cases hm.symm.trans hg
  unfold initialDlen at hdlen
  refine ⟨hne, by omega, hbelow, fun x hx => ?_⟩
  obtain rfl := List.mem_singleton.mp hx
  exact hbelow x (List.mem_of_head? hk)

/-! ### I1 to I8 under the operations of a code -/

theorem runInv_emit {s : State} {l : List Symbol} (hi : RunInv s) (hl : SymbolsBelow (clearOf s.mincs) l) :
    RunInv (emit l s) := by
  obtain ⟨hw, hp, hd, hpos, hlen, hout⟩ := hi
  exact ⟨hw, hp, hd, hpos, by simp [hlen], symbolsBelow_append.mpr ⟨hout, hl⟩⟩

theorem runInv_setPrev {s : State} {code : Code} (hi : RunInv s) (h1 : code.toNat < s.dlen.toNat)
    (h2 : code.toNat ≠ eoiOf s.mincs) : RunInv (setPrev code s) := by
  obtain ⟨hw, -, hd, hs⟩ := hi
  exact ⟨hw, .inr ⟨h1, h2⟩, hd, hs⟩

/-- Growth by the previous entry and one symbol keeps I1 to I8 (10_state.md R31). -/
theorem runInv_grow {s : State} {j k : Symbol} {p : List Symbol} (hi : RunInv s) (hf : s.dlen.toNat < 4096)
    (hp : lookup s s.prev.toNat = .ok (j, p)) (hk : SymbolsBelow (clearOf s.mincs) [k]) : RunInv (grow (p ++ [k]) s) := by
  obtain ⟨hne, hlen, hbelow, -⟩ := symbols_of_lookup hi hp
  obtain ⟨hw, -, hd, hs⟩ := hi
  obtain ⟨hlt, -, heoi⟩ := range_of_lookup hd hp
  have hpos := List.length_pos_iff.mpr hne
  refine ⟨widthInv_grow _ hw hf, .inr ⟨?_, heoi⟩, ?_, hs⟩
  · rw [grow_dlen_toNat _ hf]
    exact hlt.trans (Nat.lt_succ_self _)
  · exact dictInv_grow hw hd hf (by simp; omega) (by simpa using hlen) (symbolsBelow_append.mpr ⟨hbelow, hk⟩)

/-- A code keeps I1 to I8. Of a data code this needs that it is of its class: then `PREV` names an entry again. -/
theorem runInv_exec_classify {s t : State} {code : Code} (hi : RunInv s)
    (h : exec (classify (codeCtx s) code) s = .next t) : RunInv t := by
  cases codeCase (classify_isCode _ _) h with
  | clear _ hl ht =>
    obtain ⟨-, -, -, hs⟩ := hi
    exact ht ▸ runInv_clear hl hs
  | finish _ ht => exact ht ▸ (runInv_finish s).mpr hi
  | raise _ _ ht => exact ht ▸ (runInv_raise _ s).mpr hi
  | emit d k e hd he ht =>
    obtain ⟨rfl, hlt, -, heoi⟩ := classify_eq_known hd
    obtain ⟨-, -, hbelow, -⟩ := symbols_of_lookup hi he
    exact ht ▸ runInv_setPrev (runInv_emit hi hbelow) hlt heoi
  | grow d j k p e _ hf hp he ht =>
    obtain ⟨-, -, hpbelow, hjbelow⟩ := symbols_of_lookup hi hp
    have hdata : SymbolsBelow (clearOf s.mincs) e ∧ SymbolsBelow (clearOf s.mincs) [k]
        ∧ d.toNat < s.dlen.toNat + 1 ∧ d.toNat ≠ eoiOf s.mincs := by
      rcases he with ⟨hd, hl⟩ | ⟨hd, rfl, rfl⟩
      · obtain ⟨rfl, hlt, -, heoi⟩ := classify_eq_known hd
        obtain ⟨-, -, hbelow, hkbelow⟩ := symbols_of_lookup hi hl
        exact ⟨hbelow, hkbelow, hlt.trans (Nat.lt_succ_self _), heoi⟩
      · obtain ⟨rfl, heq, -, heoi⟩ := classify_eq_next hd
        exact ⟨symbolsBelow_append.mpr ⟨hpbelow, hjbelow⟩, hjbelow, heq ▸ Nat.lt_succ_self _, heoi⟩
    obtain ⟨hebelow, hkbelow, hdlt, hdeoi⟩ := hdata
    refine ht ▸ runInv_setPrev (runInv_emit (runInv_grow hi hf hp hkbelow) hebelow) ?_ hdeoi
    rwa [emit_dlen, grow_dlen_toNat _ hf]

/-- Settles O11: past the payload's end the fault entry leaves I1 to I8 alone, and otherwise the fetch and the code keep
them. -/
theorem coreStepKeepsRunInvariant : Obligations.CoreStepKeepsRunInvariant := by
  intro s t hrun hi hturn h
  have hi' : RunInv (setAgenda s.agenda.tail s) := (runInv_setAgenda ..).mpr hi
  cases stepCase s with
  | still _ hr _ => exact absurd hrun hr
  | pastEnd _ _ _ he =>
    cases he.symm.trans h
    exact (runInv_raise ..).mpr hi'
  | code _ _ hp _ he => exact runInv_exec_classify (runInv_advance hi' hp) (he.symm.trans h)
  | badWidth _ _ _ he => cases he.symm.trans h
  | host c rest ha _ => exact absurd hturn (not_coreTurn_of_host ha)
  | hardReset rest ha _ => exact absurd hturn (not_coreTurn_of_hardReset ha)

/-- Settles O32: `KNOWN` reads a slot in use and, after a data code, the previous one; `NEXT` reads the previous one, and a
code equal to `DLEN` has 12 bits, so the dictionary is not full. -/
theorem dataCodesCompleteInARun : Obligations.DataCodesCompleteInARun := by
  intro s code hi
  have hprev (hc : ¬prevIsClear s = true) : ∃ k l, lookup s s.prev.toNat = .ok (k, l) := by
    rw [Bool.not_eq_true, prevIsClear_eq_false] at hc
    have ⟨_, hpi, _⟩ := hi
    obtain ⟨hlt, heoi⟩ := hpi.resolve_left hc
    exact lookup_of_runInv hi hlt hc heoi
  refine ⟨fun h1 h2 h3 => ?_, fun h1 => ?_⟩
  · obtain ⟨k, l, hl⟩ := lookup_of_runInv hi h1 h2 h3
    change ∃ t, execKnown code s = .next t
    simp only [execKnown, hl]
    split
    · exact ⟨_, rfl⟩
    · rename_i hc
      obtain ⟨j, p, hp⟩ := hprev fun h => hc (by simp [h])
      exact ⟨_, by rw [hp]⟩
  · have hfull : dictFull s = false := (dictFull_eq_false s).mpr (h1 ▸ code.isLt)
    change ∃ t, execNext code s = .next t
    simp only [execNext, hfull, Bool.false_eq_true, if_false]
    split
    · exact ⟨_, rfl⟩
    · rename_i hc
      obtain ⟨k, p, hp⟩ := hprev hc
      exact ⟨_, by rw [hp]⟩

/-! ### the invariant of every state -/

/-- Settles O9: at reset both memories are empty, nothing is emitted and no run is in progress. -/
theorem resetMeetsTheInvariant : Obligations.ResetMeetsTheInvariant :=
  ⟨reset_memory_wf, sparseWf_nil _, rfl, by simp [State.reset], by simp [State.reset]⟩

theorem inv_raise {s : State} {e : ErrKind} (hi : Inv s) (he : e ≠ .none) : Inv (raise e s) := by
  obtain ⟨hm, hd, hl, -, -⟩ := hi
  exact ⟨hm, hd, hl, by simp [he], by simp⟩

theorem inv_softReset {s : State} (hm : Memory.wf s.input) : Inv (softReset s) :=
  ⟨hm, sparseWf_nil _, rfl, by simp, by simp⟩

theorem inv_hardwareReset (s : State) : Inv (hardwareReset s) :=
  ⟨sparseWf_nil _, sparseWf_nil _, rfl, by simp, by simp⟩

theorem inv_beginRun {s : State} (hm : Memory.wf s.input) (hl : mincsLegal s.mincs = true) : Inv (beginRun s) :=
  ⟨hm, clearedDict_wf hl, rfl, by simp, fun _ => runInv_beginRun hl⟩

theorem inv_advance {s : State} (hi : Inv s) (hp : pastEnd s = false) : Inv (advance s) := by
  obtain ⟨hm, hd, hl, he, hrun⟩ := hi
  exact ⟨hm, hd, hl, he, fun hr => runInv_advance (hrun hr) hp⟩

theorem inv_startCommand {s : State} (hi : Inv s) : Inv (startCommand s) := by
  rcases startCommand_cases s with ⟨-, he⟩ | ⟨-, -, he⟩ | ⟨-, hl, he⟩ <;> rw [he]
  · exact hi
  · exact inv_raise hi (by simp)
  · exact inv_beginRun hi.1 hl

/-- Outside a run the host may write any configuration: the invariant says nothing of it. -/
theorem inv_configure {s : State} (hi : Inv s) (hr : s.status ≠ .run) (m : BitVec 8) (n : BitVec 32) :
    Inv { s with mincs := m, inlen := n } := by
  obtain ⟨hm, hd, hl, he, -⟩ := hi
  exact ⟨hm, hd, hl, he, fun h => absurd h hr⟩

theorem inv_exec_decodeCmd {c : HostCmd} {s t : State} (hi : Inv s) (h : exec (decodeCmd c) s = .next t) : Inv t := by
  cases hostCase h with
  | reset _ _ _ ht => exact ht ▸ inv_softReset hi.1
  | start _ _ _ _ ht => exact ht ▸ inv_startCommand hi
  | mincs m hr ht => exact ht ▸ inv_configure hi hr m s.inlen
  | inlen n hr ht => exact ht ▸ inv_configure hi hr s.mincs n
  | load a b ht => exact ht ▸ ⟨writeByte_memory_wf hi.1 a b, hi.2⟩
  | answered _ _ ht => exact ht ▸ hi

/-- A code keeps the dictionary canonical: only growth writes a slot, and then there is room. -/
theorem dict_wf_of_codeCase {i : Instr} {s t : State} (hc : CodeCase i s t) (hd : Dict.wf s.dict) : Dict.wf t.dict := by
  cases hc with
  | clear _ hl ht => exact ht ▸ clearedDict_wf hl
  | finish _ ht => exact ht ▸ hd
  | emit _ _ _ _ _ ht => exact ht ▸ hd
  | grow _ _ _ _ _ _ hf _ _ ht => exact ht ▸ grow_dict_wf hd ((dictFull_eq_false s).mpr hf) _
  | raise _ _ ht => exact ht ▸ hd

/-- A code goes on, ends the run without an error (`EOI` alone), or ends it with one. -/
theorem status_err_of_codeCase {i : Instr} {s t : State} (hc : CodeCase i s t) :
    t.status = s.status ∧ t.err = s.err ∨ i = .eoi ∧ t.status = .done ∧ t.err = s.err
      ∨ t.status = .fault ∧ t.err = .invalidLzwCode := by
  cases hc with
  | clear _ _ ht => exact .inl (ht ▸ ⟨rfl, rfl⟩)
  | finish hi ht => exact .inr (.inl ⟨hi, ht ▸ ⟨rfl, rfl⟩⟩)
  | emit _ _ _ _ _ ht => exact .inl (ht ▸ ⟨rfl, rfl⟩)
  | grow _ _ _ _ _ _ _ _ _ ht => exact .inl (ht ▸ ⟨rfl, rfl⟩)
  | raise _ _ ht => exact .inr (.inr (ht ▸ ⟨rfl, rfl⟩))

/-- What no code writes (10_state.md R25): the host's registers, `IN`, the model's own fields, and `BITPOS`. -/
theorem frame_of_codeCase {i : Instr} {s t : State} (hc : CodeCase i s t) :
    t.mincs = s.mincs ∧ t.inlen = s.inlen ∧ t.input = s.input ∧ ModelSideSame s t ∧ t.bitpos = s.bitpos := by
  rcases hc with ⟨-, -, rfl⟩ | ⟨-, rfl⟩ | ⟨_, _, _, -, -, rfl⟩ | ⟨_, _, _, _, _, -, -, -, -, rfl⟩ | ⟨_, -, rfl⟩ <;>
    exact ⟨rfl, rfl, rfl, ⟨rfl, rfl, rfl, rfl⟩, rfl⟩

/-- Settles O39: no operation a code is made of writes any of these. -/
theorem codesLeaveTheHostSide : Obligations.CodesLeaveTheHostSide := by
  intro s t i hi h
  obtain ⟨hm, hn, hin, hmodel, hpos⟩ := frame_of_codeCase (codeCase hi h)
  exact ⟨⟨hm, hn, byteAt_congr hin hmodel.2.2.2⟩, hmodel, hpos⟩

theorem inv_exec_classify {s t : State} {code : Code} (hi : Inv s) (hr : s.status = .run)
    (h : exec (classify (codeCtx s) code) s = .next t) : Inv t := by
  have hc := codeCase (classify_isCode _ _) h
  obtain ⟨hm, hd, -, he, hrun⟩ := hi
  have hrun' := runInv_exec_classify (hrun hr) h
  have ⟨_, _, _, _, hlen, _⟩ := hrun'
  obtain ⟨-, -, hin, -⟩ := frame_of_codeCase hc
  refine ⟨hin ▸ hm, dict_wf_of_codeCase hc hd, hlen, ?_, fun _ => hrun'⟩
  rcases status_err_of_codeCase hc with ⟨h1, h2⟩ | ⟨-, h1, h2⟩ | ⟨h1, h2⟩
  · rwa [h1, h2]
  · simpa [h1, h2, hr] using he
  · simp [h1, h2]

/-- Settles O10: by whose turn it is; a code keeps I1 to I8, and every other move is one operation. -/
theorem everyStepKeepsTheInvariant : Obligations.EveryStepKeepsTheInvariant := by
  intro s t hi h
  have hi' : Inv (setAgenda s.agenda.tail s) := (inv_setAgenda ..).mpr hi
  cases stepCase s with
  | still _ _ he =>
    cases he.symm.trans h
    exact hi'
  | pastEnd _ _ _ he =>
    cases he.symm.trans h
    exact inv_raise hi' (by simp)
  | code _ hr hp _ he => exact inv_exec_classify (inv_advance hi' hp) hr (he.symm.trans h)
  | badWidth _ _ _ he => cases he.symm.trans h
  | host _ _ _ he => exact inv_exec_decodeCmd hi' (he.symm.trans h)
  | hardReset _ _ he =>
    cases he.symm.trans h
    exact inv_hardwareReset _

/-! ### no stop -/

theorem exec_classify_completes {s : State} (hi : RunInv s) (code : Code) :
    ∃ t, exec (classify (codeCtx s) code) s = .next t := by
  obtain ⟨hknown, hnext⟩ := dataCodesCompleteInARun s code hi
  rcases classify_cases (codeCtx s) code with ⟨-, hc⟩ | ⟨-, -, hc⟩ | ⟨h1, h2, h3, hc⟩ | ⟨-, -, h1, hc⟩ | ⟨-, -, -, hc⟩ <;>
    rw [hc]
  · exact ⟨clear s, if_pos hi.1.1⟩
  · exact ⟨_, rfl⟩
  · exact hknown h3 h1 h2
  · exact hnext h1
  · exact ⟨_, rfl⟩

/-- Settles O12: in a run `CW` has a code format and every code completes; a host command completes but for that `LOAD`. -/
theorem onlyLoadIntoRunningPayloadStops : Obligations.OnlyLoadIntoRunningPayloadStops := by
  intro s hi
  obtain ⟨-, -, -, -, hrun⟩ := hi
  cases stepCase s with
  | still _ _ he => exact .inl ⟨_, he⟩
  | pastEnd _ _ _ he => exact .inl ⟨_, he⟩
  | code _ hr hp _ he =>
    have hi' : RunInv (setAgenda s.agenda.tail s) := (runInv_setAgenda ..).mpr (hrun hr)
    obtain ⟨t, ht⟩ := exec_classify_completes (runInv_advance hi' hp) (fetchedCode s)
    exact .inl ⟨t, he.trans ht⟩
  | badWidth _ hr hw _ => exact absurd (cw_bounds_of_widthInv (hrun hr).1) hw
  | host c rest ha he =>
    rcases exec_decodeCmd_completes c (setAgenda s.agenda.tail s) with ⟨t, ht⟩ | ⟨href, hr, a, b, rfl, hlt⟩
    · exact .inl ⟨t, he.trans ht⟩
    · exact .inr ⟨he.trans href, hr, a, b, rest, ha, hlt⟩
  | hardReset _ _ he => exact .inl ⟨_, he⟩

/-! ### who starts and who ends a run -/

/-- Only RST and START touch `STATUS`. -/
theorem status_of_hostCase {c : HostCmd} {s t : State} (hc : HostCase c s t) :
    t.status = s.status ∨ t.status = .idle ∨
      ∃ v, c = .write 0 v ∧ v.getLsbD 1 = false ∧ v.getLsbD 0 = true ∧ t = startCommand s := by
  cases hc with
  | reset _ _ _ ht => exact .inr (.inl (ht ▸ rfl))
  | start v hc h1 h0 ht => exact .inr (.inr ⟨v, hc, h1, h0, ht⟩)
  | mincs _ _ ht => exact .inl (ht ▸ rfl)
  | inlen _ _ ht => exact .inl (ht ▸ rfl)
  | load _ _ ht => exact .inl (ht ▸ rfl)
  | answered _ _ ht => exact .inl (ht ▸ rfl)

/-- Outside a run a host transaction enters `RUN` only as a START with a legal `MINCS`, and then it is an accepted START. -/
theorem exec_decodeCmd_enters_run {c : HostCmd} {s t : State} (hr : s.status ≠ .run)
    (h : exec (decodeCmd c) s = .next t) (ht : t.status = .run) :
    mincsLegal s.mincs = true ∧ t = beginRun s ∧ ∃ v, c = .write 0 v ∧ v.getLsbD 1 = false ∧ v.getLsbD 0 = true := by
  rcases status_of_hostCase (hostCase h) with he | he | ⟨v, hc, h1, h0, he⟩
  · exact absurd (he.symm.trans ht) hr
  · cases he.symm.trans ht
  · rcases startCommand_cases s with ⟨hr', -⟩ | ⟨-, -, hs⟩ | ⟨-, hl, hs⟩
    · exact absurd hr' hr
    · simp [he, hs] at ht
    · exact ⟨hl, he.trans hs, v, hc, h1, h0⟩

/-- A step enters `RUN` only as an accepted START. -/
theorem step_enters_run {s t : State} (hr : s.status ≠ .run) (h : step s = .next t) (ht : t.status = .run) :
    mincsLegal s.mincs = true ∧ t = beginRun (setAgenda s.agenda.tail s)
      ∧ ∃ v rest, s.agenda = .host (.write 0 v) :: rest ∧ v.getLsbD 1 = false ∧ v.getLsbD 0 = true := by
  cases stepCase s with
  | still _ _ he =>
    cases he.symm.trans h
    exact absurd ht hr
  | pastEnd _ hr' => exact absurd hr' hr
  | code _ hr' => exact absurd hr' hr
  | badWidth _ hr' => exact absurd hr' hr
  | host c rest ha he =>
    obtain ⟨hl, hb, v, rfl, hv⟩ := exec_decodeCmd_enters_run (s := setAgenda s.agenda.tail s) hr (he.symm.trans h) ht
    exact ⟨hl, hb, v, rest, ha, hv⟩
  | hardReset _ _ he =>
    cases he.symm.trans h
    simp at ht

/-- Settles O45: every other host transaction leaves `STATUS` or resets it, and the core has no step outside a run. -/
theorem onlyStartEntersRun : Obligations.OnlyStartEntersRun := by
  intro s t hr h ht
  obtain ⟨hl, -, hv⟩ := step_enters_run hr h ht
  obtain ⟨h1, h2⟩ := (mincsLegal_iff _).mp hl
  exact ⟨h1, h2, hv⟩

/-- No host transaction enters `DONE`. -/
theorem exec_decodeCmd_not_done {c : HostCmd} {s t : State} (hs : s.status ≠ .done)
    (h : exec (decodeCmd c) s = .next t) : t.status ≠ .done := by
  rcases status_of_hostCase (hostCase h) with he | he | ⟨-, -, -, -, rfl⟩
  · rwa [he]
  · simp [he]
  · rcases startCommand_cases s with ⟨-, he⟩ | ⟨-, -, he⟩ | ⟨-, -, he⟩ <;> simp [he, hs]

/-- Settles O46: of the codes only `EOI` writes `DONE`, and a code of that class has the value `EOI`. -/
theorem onlyEoiEntersDone : Obligations.OnlyEoiEntersDone := by
  intro s t hs h ht
  cases stepCase s with
  | still _ _ he =>
    cases he.symm.trans h
    exact absurd ht hs
  | pastEnd _ _ _ he =>
    cases he.symm.trans h
    simp at ht
  | code hc hr hp hw he =>
    rcases status_err_of_codeCase (codeCase (classify_isCode _ _) (he.symm.trans h)) with ⟨h1, -⟩ | ⟨h1, -⟩ | ⟨h1, -⟩
    · exact absurd (h1.symm.trans ht) hs
    · have hv : (fetchedCode s).toNat = 2 ^ s.mincs.toNat + 1 := classify_eq_eoi h1
      exact ⟨hr, hc, by rw [readBits_eq_fetchedCode hp hw.2, hv]⟩
    · simp [h1] at ht
  | badWidth _ _ _ he => cases he.symm.trans h
  | host _ _ _ he =>
    exact absurd ht (exec_decodeCmd_not_done (s := setAgenda s.agenda.tail s) hs (he.symm.trans h))
  | hardReset _ _ he =>
    cases he.symm.trans h
    simp at ht

/-! ### the prefix property -/

/-- After `Clear()` no entry is grown. -/
theorem prefixInv_clear {s : State} (hl : mincsLegal s.mincs = true) : PrefixInv (clear s) := by
  obtain ⟨hd, -, -⟩ := clear_toNat hl
  intro c h1 h2
  rw [hd] at h2
  exact absurd h2 (Nat.not_lt.mpr h1)

/-- The new entry extends the previous one, which stands below it (40_fetch_and_width.md R67). -/
theorem prefixInv_grow {s : State} {j k : Symbol} {p : List Symbol} (hd : DictInv s) (hi : PrefixInv s)
    (hf : s.dlen.toNat < 4096) (hp : lookup s s.prev.toNat = .ok (j, p)) : PrefixInv (grow (p ++ [k]) s) := by
  intro c h1 h2
  rw [grow_dlen_toNat _ hf] at h2
  by_cases hc : c = s.dlen.toNat
  · subst hc
    obtain ⟨hlt, hclear, heoi⟩ := range_of_lookup hd hp
    obtain ⟨hg, -⟩ := (lookup_eq_ok_iff ..).mp hp
    refine ⟨s.prev.toNat, k, p, hlt, hclear, heoi, ?_, ?_⟩
    · rw [grow_dict, sparseGet_set_other _ _ hlt.ne, hg]
    · rw [grow_dict, sparseGet_set_same]
  · have hlt : c < s.dlen.toNat := by omega
    obtain ⟨q, x, l, hq, hclear, heoi, hgq, hgc⟩ := hi c h1 hlt
    refine ⟨q, x, l, hq, hclear, heoi, ?_, ?_⟩
    · rw [grow_dict, sparseGet_set_other _ _ (hq.trans hlt).ne, hgq]
    · rw [grow_dict, sparseGet_set_other _ _ hlt.ne, hgc]

/-- A code keeps the prefix property; emitting, `PREV` and `STATUS` do not bear on it. -/
theorem prefixInv_of_codeCase {i : Instr} {s t : State} (hc : CodeCase i s t) (hd : DictInv s) (hi : PrefixInv s) :
    PrefixInv t := by
  cases hc with
  | clear _ hl ht => exact ht ▸ prefixInv_clear hl
  | finish _ ht => exact ht ▸ hi
  | emit _ _ _ _ _ ht => exact ht ▸ hi
  | grow _ _ k _ _ _ hf hp _ ht =>
    have hg := prefixInv_grow (k := k) hd hi hf hp
    exact ht ▸ hg
  | raise _ _ ht => exact ht ▸ hi

/-- A host transaction that leaves a run in progress leaves the dictionary. -/
theorem prefixInv_exec_decodeCmd {c : HostCmd} {s t : State} (hr : s.status = .run) (hi : PrefixInv s)
    (h : exec (decodeCmd c) s = .next t) (ht : t.status = .run) : PrefixInv t := by
  cases hostCase h with
  | reset _ _ _ he => simp [he] at ht
  | start _ _ _ _ he => exact (he.trans (startCommand_running s hr)) ▸ hi
  | mincs _ hr' _ => exact absurd hr hr'
  | inlen _ hr' _ => exact absurd hr hr'
  | load _ _ he => exact he ▸ hi
  | answered _ _ he => exact he ▸ hi

/-- A step from a run into a run keeps the prefix property. -/
theorem prefixInv_step {s t : State} (hr : s.status = .run) (hd : DictInv s) (hi : PrefixInv s) (h : step s = .next t)
    (ht : t.status = .run) : PrefixInv t := by
  cases stepCase s with
  | still _ hr' => exact absurd hr hr'
  | pastEnd _ _ _ he =>
    cases he.symm.trans h
    exact hi
  | code _ _ _ _ he => exact prefixInv_of_codeCase (codeCase (classify_isCode _ _) (he.symm.trans h)) hd hi
  | badWidth _ _ _ he => cases he.symm.trans h
  | host _ _ _ he =>
    exact prefixInv_exec_decodeCmd (s := setAgenda s.agenda.tail s) hr hi (he.symm.trans h) ht
  | hardReset _ _ he =>
    cases he.symm.trans h
    simp at ht

/-- Settles O13: a step into a run is an accepted START, after which nothing is grown, or comes from a run. -/
theorem grownEntriesExtendEarlierOnes : Obligations.GrownEntriesExtendEarlierOnes := by
  intro s t hi hpre h ht
  by_cases hr : s.status = .run
  · obtain ⟨-, -, -, -, hrun⟩ := hi
    obtain ⟨-, -, hd, -⟩ := hrun hr
    exact prefixInv_step hr hd (hpre hr) h ht
  · obtain ⟨hl, rfl, -⟩ := step_enters_run hr h ht
    exact prefixInv_clear hl

/-! ### reads and loads -/

/-- Settles O40: an answer, a drawn symbol and a written byte touch nothing the core writes. -/
theorem readsAndLoadsLeaveTheCoreSide : Obligations.ReadsAndLoadsLeaveTheCoreSide := by
  rintro s t i (⟨n, rfl⟩ | ⟨n, rfl⟩ | ⟨a, b, rfl⟩) h
  · cases h
    simp [CoreSideSame, SameBytes, byteAt]
  · obtain ⟨k, -, rfl⟩ | ⟨-, rfl⟩ := execDrain_cases h
    · simp [CoreSideSame, SameBytes, byteAt]
    · simp [CoreSideSame, SameBytes, byteAt]
  · obtain ⟨-, rfl⟩ := execLoad_cases h
    simp [CoreSideSame]

end Sys2Proof.Machine
end

section
/-! SUPPORT. The payload memory: `ReadBits` as a sum of bits and as a slice of three bytes, what the codes append to `OUT`,
and that a core step reads nothing at `INLEN` and above. -/

namespace Sys2Proof.Machine

/-! ### `ReadBits` as a sum -/

/-- A number assembled from bits of `IN` is the sum of the bits at their places. -/
theorem assemble_bitsAt_eq_sum (s : State) (p n : Nat) :
    assemble (bitsAt s p n) = ∑ i ∈ Finset.range n, (inBit s (p + i)).toNat <<< i := by
  induction n generalizing p with
  | zero => rfl
  | succ n ih =>
    have hplace : ∀ i, (inBit s (p + (i + 1))).toNat <<< (i + 1) = 2 * ((inBit s (p + 1 + i)).toNat <<< i) := fun i => by
      rw [Nat.shiftLeft_succ, Nat.add_right_comm p 1 i, Nat.add_assoc]
    rw [Finset.sum_range_succ', Finset.sum_congr rfl fun i _ => hplace i, ← Finset.mul_sum, ← ih]
    exact Nat.add_comm _ _

/-- Settles O21: the sum of bits, under the test of `readBits` turned round. -/
theorem readBitsIsTheSumOfItsBits : Obligations.ReadBitsIsTheSumOfItsBits := by
  intro s p n
  rw [readBits, assemble_bitsAt_eq_sum]
  by_cases h : p + n ≤ 8 * s.inlen.toNat
  · rw [if_pos h, if_neg (Nat.not_lt.mpr h)]
    rfl
  · rw [if_neg h, if_pos (Nat.not_le.mp h)]

/-! ### `ReadBits` as a slice of three bytes -/

theorem testBit_assemble (l : List Bool) (i : Nat) : (assemble l).testBit i = l[i]?.getD false := by
  induction l generalizing i with
  | nil => simp [assemble]
  | cons b l ih =>
    rw [assemble, Nat.add_comm]
    have hb : b.toNat < 2 ^ 1 := Bool.toNat_lt b
    have hbit := Nat.testBit_two_pow_mul_add (assemble l) hb i
    rw [pow_one] at hbit
    rw [hbit]
    cases i with
    | zero => cases b <;> rfl
    | succ i => simp [ih]

/-- The bits of the number `ReadBits` answers. -/
theorem testBit_assemble_bitsAt (s : State) (p n i : Nat) :
    (assemble (bitsAt s p n)).testBit i = (decide (i < n) && inBit s (p + i)) := by
  rw [testBit_assemble]
  by_cases h : i < n
  · rw [bitsAt_getElem? s p n i h, decide_eq_true h]
    rfl
  · rw [List.getElem?_eq_none (by rw [bitsAt_length]; omega)]
    simp [h]

/-- The bits of a little-endian number of three bytes lie in the byte their place falls in. -/
theorem testBit_threeBytes {byte : Nat → Nat} (hb : ∀ a, byte a < 2 ^ 8) (a : Nat) {j : Nat} (hj : j < 24) :
    (byte a + 256 * byte (a + 1) + 65536 * byte (a + 2)).testBit j = (byte (a + j / 8)).testBit (j % 8) := by
  have hw : byte a + 256 * byte (a + 1) + 65536 * byte (a + 2)
      = 2 ^ 8 * (2 ^ 8 * byte (a + 2) + byte (a + 1)) + byte a := by ring
  rw [hw, Nat.testBit_two_pow_mul_add _ (hb a), Nat.testBit_two_pow_mul_add _ (hb (a + 1))]
  obtain h | h | h : j / 8 = 0 ∨ j / 8 = 1 ∨ j / 8 = 2 := by omega
  · rw [if_pos (by omega), h, Nat.mod_eq_of_lt (by omega), Nat.add_zero]
  · rw [if_neg (by omega), if_pos (by omega), h, show j % 8 = j - 8 by omega]
  · rw [if_neg (by omega), if_neg (by omega), h, show j % 8 = j - 8 - 8 by omega]

/-- Settles O22, bit by bit: bit `i` of the slice is bit `p % 8 + i` of the three bytes, which is bit `p + i` of `IN`. -/
theorem readBitsFromThreeBytes : Obligations.ReadBitsFromThreeBytes := by
  intro s p n hn hp byte w
  have hbyte : ∀ a, byte a < 2 ^ 8 := fun a => by
    by_cases ha : a < s.inlen.toNat
    · simpa only [byte, if_pos ha] using (byteAt s a).isLt
    · simp only [byte, if_neg ha, Nat.two_pow_pos]
  rw [readBits, if_neg (Nat.not_lt.mpr hp), Option.some_inj]
  refine Nat.eq_of_testBit_eq fun i => ?_
  rw [testBit_assemble_bitsAt, Nat.testBit_and, Nat.testBit_shiftRight, Nat.one_shiftLeft, Nat.testBit_two_pow_sub_one,
    Bool.and_comm]
  by_cases hi : i < n
  · congr 1
    have hin : (p + i) / 8 < s.inlen.toNat := by omega
    have hplace : p / 8 + (p % 8 + i) / 8 = (p + i) / 8 ∧ (p % 8 + i) % 8 = (p + i) % 8 := by omega
    rw [testBit_threeBytes hbyte _ (by omega), hplace.1, hplace.2]
    simp only [byte, if_pos hin]
    rfl
  · simp only [decide_eq_false hi, Bool.and_false]

/-! ### what a code appends -/

/-- Settles O41: `KNOWN` and `NEXT` emit one sequence, the other codes and a faulting `NEXT` the empty one. -/
theorem codesOnlyAppendOutput : Obligations.CodesOnlyAppendOutput := by
  intro s t i hi h
  cases codeCase hi h with
  | clear _ _ ht => exact ⟨[], by simp [ht]⟩
  | finish _ ht => exact ⟨[], by simp [ht]⟩
  | emit code _ e hk _ ht => exact ⟨e, by simp [ht], by simp [ht], fun hne => absurd hk (hne code).1⟩
  | grow code _ _ _ e _ _ _ he ht =>
    refine ⟨e, by simp [ht], by simp [ht], fun hne => ?_⟩
    obtain ⟨hk, -⟩ | ⟨hk, -⟩ := he
    · exact absurd hk (hne code).1
    · exact absurd hk (hne code).2
  | raise _ _ ht => exact ⟨[], by simp [ht]⟩

/-! ### a core step with another memory -/

/-- `s` with `m` as its payload memory. -/
def setInput (m : Memory) (s : State) : State := { s with input := m }

/-- The turn that does in `f s` what the given one does in `s`. -/
def Turn.mapState (f : State → State) : Turn → Turn
  | .run i s => .run i (f s)
  | .settle s => .settle (f s)
  | .stop r => .stop r

/-- The outcome with its next state, if it has one, changed by `f`. -/
def mapNext (f : State → State) : Host.Outcome State Fault Refusal → Host.Outcome State Fault Refusal
  | .next s => .next (f s)
  | .fault r => .fault r
  | .refused r => .refused r

@[simp] theorem setInput_prev (m : Memory) (s : State) : (setInput m s).prev = s.prev := rfl

@[simp] theorem setInput_mincs (m : Memory) (s : State) : (setInput m s).mincs = s.mincs := rfl

@[simp] theorem lookup_setInput (m : Memory) (s : State) (c : Nat) : lookup (setInput m s) c = lookup s c :=
  lookup_congr rfl c

@[simp] theorem prevIsClear_setInput (m : Memory) (s : State) : prevIsClear (setInput m s) = prevIsClear s := rfl

@[simp] theorem dictFull_setInput (m : Memory) (s : State) : dictFull (setInput m s) = dictFull s := rfl

@[simp] theorem running_setInput (m : Memory) (s : State) : running (setInput m s) = running s := rfl

@[simp] theorem pastEnd_setInput (m : Memory) (s : State) : pastEnd (setInput m s) = pastEnd s := rfl

/-- `KNOWN` reads the dictionary and registers only. -/
theorem execKnown_setInput (m : Memory) (code : Code) (s : State) :
    execKnown code (setInput m s) = mapNext (setInput m) (execKnown code s) := by
  simp only [execKnown, lookup_setInput, prevIsClear_setInput, dictFull_setInput, setInput_prev]
  cases lookup s code.toNat with
  | error f => rfl
  | ok r =>
    cases prevIsClear s || dictFull s with
    | true => rfl
    | false => cases lookup s s.prev.toNat <;> rfl

/-- `NEXT` reads the dictionary and registers only. -/
theorem execNext_setInput (m : Memory) (code : Code) (s : State) :
    execNext code (setInput m s) = mapNext (setInput m) (execNext code s) := by
  simp only [execNext, lookup_setInput, prevIsClear_setInput, dictFull_setInput, setInput_prev]
  cases prevIsClear s with
  | true => rfl
  | false =>
    cases dictFull s with
    | true => rfl
    | false => cases lookup s s.prev.toNat <;> rfl

/-- `CLR` reads `MINCS` only. -/
theorem execClr_setInput (m : Memory) (s : State) : execClr (setInput m s) = mapNext (setInput m) (execClr s) := by
  rw [execClr, execClr, setInput_mincs, apply_ite (mapNext (setInput m))]
  rfl

/-- No code reads `IN` (only the fetch does), and every code leaves it. -/
theorem exec_setInput {i : Instr} (hi : isCode i = true) (m : Memory) (s : State) :
    exec i (setInput m s) = mapNext (setInput m) (exec i s) := by
  cases i with
  | clr => exact execClr_setInput m s
  | known code => exact execKnown_setInput m code s
  | next code => exact execNext_setInput m code s
  | eoi | bad => rfl
  | start | rst | wrreg | rdreg | load | drain => simp [isCode] at hi

section

variable {m : Memory} {s : State} (hm : ∀ a, a < s.inlen.toNat → sparseGet m a = sparseGet s.input a)

include hm

/-- Bits inside the payload read the same from a memory that agrees there. -/
theorem bitsAt_setInput {p n : Nat} (hp : p + n ≤ 8 * s.inlen.toNat) : bitsAt (setInput m s) p n = bitsAt s p n := by
  refine bitsAt_congr p n fun a _ _ ha => ?_
  change (sparseGet m a).getD _ = (sparseGet s.input a).getD _
  rw [hm a (by omega)]
  rfl

/-- The fetch reads inside the payload only, because it tests the bound first (40_fetch_and_width.md R62). -/
theorem fetchTurn_setInput : fetchTurn (setInput m s) = (fetchTurn s).mapState (setInput m) := by
  cases hp : pastEnd s with
  | true =>
    rw [fetchTurn_pastEnd hp, fetchTurn_pastEnd ((pastEnd_setInput m s).trans hp)]
    rfl
  | false =>
    have hbits := bitsAt_setInput hm ((pastEnd_eq_false s).mp hp)
    have hdec : decodeBits (codeCtx (setInput m s))
          (bitsAt (setInput m s) (setInput m s).bitpos.toNat (setInput m s).cw.toNat)
        = decodeBits (codeCtx s) (bitsAt s s.bitpos.toNat s.cw.toNat) := congrArg (decodeBits (codeCtx s)) hbits
    simp only [fetchTurn, pastEnd_setInput, hp, hdec]
    rcases decodeBits (codeCtx s) (bitsAt s s.bitpos.toNat s.cw.toNat) with (_ | _) | _ <;> rfl

theorem coreTurn_setInput : coreTurn (setInput m s) = (coreTurn s).mapState (setInput m) := by
  simp only [coreTurn, running_setInput, fetchTurn_setInput hm]
  cases running s <;> rfl

end

/-- What the core executes is a code. -/
theorem isCode_of_coreTurn {s t : State} {i : Instr} (h : coreTurn s = .run i t) : isCode i = true := by
  rcases coreTurn_cases s with ⟨-, he⟩ | ⟨-, -, he⟩ | ⟨-, -, -, he⟩ | ⟨-, -, -, he⟩
  case inr.inr.inl =>
    cases he.symm.trans h
    exact classify_isCode _ _
  all_goals cases he.symm.trans h

/-- Settles O44: the core's turn reads inside the payload only, and what it executes reads no memory. -/
theorem bytesBeyondPayloadAreUnseen : Obligations.BytesBeyondPayloadAreUnseen := by
  intro s m _ hc hm
  change step (setInput m s) = mapNext (setInput m) (step s)
  have hturn : nextTurn (setInput m s) = (coreTurn (setAgenda s.agenda.tail s)).mapState (setInput m) :=
    (nextTurn_coreTurn (s := setInput m s) hc).trans (coreTurn_setInput (s := setAgenda s.agenda.tail s) hm)
  rw [step, step, hturn, nextTurn_coreTurn hc]
  cases ht : coreTurn (setAgenda s.agenda.tail s) with
  | run i u => exact exec_setInput (isCode_of_coreTurn ht) m u
  | settle u => rfl
  | stop r => rfl

end Sys2Proof.Machine
end

section
/-! SUPPORT. The encoding: a code read against legal registers and its operation determine each other, host transactions
and placed table words, and bits packed into bytes. -/

namespace Sys2Proof.Machine

/-! ### legal registers and the classes of a code -/

/-- I1 to I4 of 10_state.md R31, as far as codes depend on them, as inequalities of numbers. -/
theorem legal_iff (c : CodeCtx) :
    c.legal = true ↔ mincsLegal c.mincs = true ∧ clearOf c.mincs + 2 ≤ c.dlen.toNat ∧ c.dlen.toNat ≤ 4096
      ∧ c.mincs.toNat + 1 ≤ c.cw.toNat ∧ c.cw.toNat ≤ 12
      ∧ (c.dlen.toNat < 2 ^ c.cw.toNat ∨ c.cw.toNat = 12 ∧ c.dlen.toNat = 4096) := by
  simp only [CodeCtx.legal, Bool.and_eq_true, decide_eq_true_eq, and_assoc]
  exact Iff.rfl

theorem cw_bounds_of_legal {c : CodeCtx} (h : c.legal = true) : 3 ≤ c.cw.toNat ∧ c.cw.toNat ≤ 12 := by
  obtain ⟨hm, -, -, hlow, hmax, -⟩ := (legal_iff c).mp h
  obtain ⟨hmincs, -⟩ := (mincsLegal_iff _).mp hm
  omega

/-- The codes `CLEAR` and `EOI` are below `DLEN`, and every code below `DLEN` has `CW` bits. -/
theorem dlen_bounds_of_legal {c : CodeCtx} (h : c.legal = true) :
    clearOf c.mincs + 2 ≤ c.dlen.toNat ∧ c.dlen.toNat ≤ 2 ^ c.cw.toNat := by
  obtain ⟨-, hlow, -, -, -, hlt | ⟨hw, hd⟩⟩ := (legal_iff c).mp h
  · exact ⟨hlow, hlt.le⟩
  · exact ⟨hlow, by rw [hw, hd]; norm_num⟩

/-- A number of `CW` bits is a code of that value. -/
theorem toNat_ofNat_of_lt_codeSpace {c : CodeCtx} (hl : c.legal = true) {v : Nat} (hv : v < 2 ^ c.cw.toNat) :
    (BitVec.ofNat 12 v).toNat = v := by
  obtain ⟨-, hmax⟩ := cw_bounds_of_legal hl
  exact Nat.mod_eq_of_lt (hv.trans_le (Nat.pow_le_pow_right (by norm_num) hmax))

/-- Settles O18: the ordered tests of `classify` as ranges, which are disjoint because `CLEAR + 2 <= DLEN`. -/
theorem codeClassesAreRanges : Obligations.CodeClassesAreRanges := by
  intro c code hl
  obtain ⟨hlow, -⟩ := dlen_bounds_of_legal hl
  have hcases := classify_cases c code
  simp only [clearOf, eoiOf] at hlow hcases
  rcases hcases with ⟨h1, he⟩ | ⟨h1, h2, he⟩ | ⟨h1, h2, h3, he⟩ | ⟨h1, h2, h3, he⟩ | ⟨h1, h2, h3, he⟩ <;>
    simp only [he, reduceCtorEq, true_iff, false_iff] <;> omega

/-- Settles O19: `DLEN` at 4096 is beyond every code, and `DLEN` one below the code space is its greatest code. -/
theorem fullCodeSpaceLeavesOutBad : Obligations.FullCodeSpaceLeavesOutBad := by
  intro c code hl hcode
  obtain ⟨-, -, -, hnext, hbad⟩ := codeClassesAreRanges c code hl
  refine ⟨fun hd => ?_, fun hd => ⟨fun hb => ?_, by rw [hnext, hd]⟩⟩
  · have hlt : code.toNat < c.dlen.toNat := hd ▸ code.isLt
    rcases classify_cases c code with ⟨-, he⟩ | ⟨-, -, he⟩ | ⟨-, -, -, he⟩ | ⟨-, -, h, -⟩ | ⟨-, -, h, -⟩
    · exact .inl he
    · exact .inr (.inl he)
    · exact .inr (.inr he)
    · omega
    · omega
  · have hgt := hbad.mp hb
    omega

/-! ### a code and its operation -/

/-- The operation a code is read as has that code's value (30_encoding.md R53). -/
theorem encode_classify (c : CodeCtx) (code : Code) : encode c (classify c code) = encodeCode c code.toNat := by
  rcases classify_cases c code with ⟨h, he⟩ | ⟨-, h, he⟩ | ⟨-, -, -, he⟩ | ⟨-, -, -, he⟩ | ⟨-, -, -, he⟩ <;> rw [he]
  · exact congrArg (encodeCode c) h.symm
  · exact congrArg (encodeCode c) h.symm
  all_goals rfl

/-- The operation a code of `CW` bits is read as is well-formed. -/
theorem wellFormed_classify {c : CodeCtx} {code : Code} (hl : c.legal = true) (hcode : code.toNat < 2 ^ c.cw.toNat) :
    (classify c code).wellFormed c = true := by
  rcases classify_cases c code with ⟨-, he⟩ | ⟨-, -, he⟩ | ⟨h1, h2, h3, he⟩ | ⟨-, -, h3, he⟩ | ⟨-, -, h3, he⟩ <;> rw [he]
  · exact hl
  · exact hl
  · simp [Instr.wellFormed, hl, h1, h2, h3]
  · simp [Instr.wellFormed, hl, h3, h3 ▸ hcode]
  · simp [Instr.wellFormed, hl, h3, hcode]

/-- A well-formed code operation is read against legal registers. -/
theorem legal_of_wellFormed {c : CodeCtx} {i : Instr} (hi : isCode i = true) (h : i.wellFormed c = true) :
    c.legal = true := by
  cases i with
  | clr | eoi => exact h
  | known | next | bad =>
    simp only [Instr.wellFormed, Bool.and_eq_true] at h
    tauto
  | start | rst | wrreg | rdreg | load | drain => simp [isCode] at hi

/-- A well-formed code operation is what some code of `CW` bits is read as. -/
theorem exists_classify_eq {c : CodeCtx} {i : Instr} (hi : isCode i = true) (h : i.wellFormed c = true) :
    ∃ code : Code, code.toNat < 2 ^ c.cw.toNat ∧ classify c code = i := by
  have hl := legal_of_wellFormed hi h
  obtain ⟨hlow, hfit⟩ := dlen_bounds_of_legal hl
  have hranges := fun code => codeClassesAreRanges c code hl
  cases i with
  | clr =>
    have hlt : clearOf c.mincs < 2 ^ c.cw.toNat := by omega
    have hv := toNat_ofNat_of_lt_codeSpace hl hlt
    obtain ⟨hclr, -⟩ := hranges (BitVec.ofNat 12 (clearOf c.mincs))
    exact ⟨_, hv.trans_lt hlt, hclr.mpr hv⟩
  | eoi =>
    have hlt : eoiOf c.mincs < 2 ^ c.cw.toNat := by unfold eoiOf; omega
    have hv := toNat_ofNat_of_lt_codeSpace hl hlt
    obtain ⟨-, heoi, -⟩ := hranges (BitVec.ofNat 12 (eoiOf c.mincs))
    exact ⟨_, hv.trans_lt hlt, heoi.mpr hv⟩
  | known code =>
    simp only [Instr.wellFormed, Bool.and_eq_true, decide_eq_true_eq] at h
    obtain ⟨⟨⟨-, hlt⟩, hclear⟩, heoi⟩ := h
    obtain ⟨-, -, hknown, -⟩ := hranges code
    refine ⟨code, hlt.trans_le hfit, hknown.mpr ?_⟩
    simp only [eoiOf, clearOf] at hclear heoi
    omega
  | next code =>
    simp only [Instr.wellFormed, Bool.and_eq_true, decide_eq_true_eq] at h
    obtain ⟨⟨-, heq⟩, hlt⟩ := h
    obtain ⟨-, -, -, hnext, -⟩ := hranges code
    exact ⟨code, hlt, hnext.mpr heq⟩
  | bad code =>
    simp only [Instr.wellFormed, Bool.and_eq_true, decide_eq_true_eq] at h
    obtain ⟨⟨-, hgt⟩, hlt⟩ := h
    obtain ⟨-, -, -, -, hbad⟩ := hranges code
    exact ⟨code, hlt, hbad.mpr hgt⟩
  | start | rst | wrreg | rdreg | load | drain => simp [isCode] at hi

/-- `CW` bits of a code, whatever follows them, are read as that code, and what follows is left (30_encoding.md R56). -/
theorem decodeBits_bitsOf_append {c : CodeCtx} {code : Code} (hl : c.legal = true) (hcode : code.toNat < 2 ^ c.cw.toNat)
    (rest : List Bool) :
    decodeBits c (bitsOf c.cw.toNat code.toNat ++ rest) = .ok (classify c code, rest) := by
  obtain ⟨h1, h2⟩ := cw_bounds_of_legal hl
  have hwidth : ¬(c.cw.toNat < Config.minCw ∨ Config.maxCw < c.cw.toNat) := by
    simp only [Config.minCw, Config.maxCw]
    omega
  have hlen := bitsOf_length c.cw.toNat code.toNat
  have hvalue : BitVec.ofNat 12 (assemble (bitsOf c.cw.toNat code.toNat)) = code := by
    rw [assemble_bitsOf, Nat.mod_eq_of_lt hcode, BitVec.ofNat_toNat, BitVec.setWidth_eq]
  rw [decodeBits, if_neg hwidth, if_neg (by simp), List.take_left' hlen, List.drop_left' hlen, hvalue]

/-! ### host transactions -/

/-- A well-formed host command is read back from its transaction: the values 1 and 2 written to `CTRL` have the bits of
`START` and `RST`, and a well-formed `WRREG` has neither bit there (30_encoding.md R57). -/
theorem decodeCmd_encode {c : CodeCtx} {i : Instr} (hi : isCode i = false) (h : i.wellFormed c = true) :
    ∃ t, encode c i = .cmd t ∧ decodeCmd t = i := by
  cases i with
  | clr | eoi | known | next | bad => simp [isCode] at hi
  | start | rst | rdreg | load | drain => exact ⟨_, rfl, rfl⟩
  | wrreg n v =>
    simp only [Instr.wellFormed, isCtrlCommand, Bool.not_eq_true', Bool.and_eq_false_iff, decide_eq_false_iff_not,
      Bool.or_eq_false_iff] at h
    refine ⟨_, rfl, ?_⟩
    rcases h with hn | ⟨h0, h1⟩
    · simp [decodeCmd, hn]
    · simp only [decodeCmd, h0, h1, Bool.false_eq_true, and_false, if_false]

/-- Settles O3: the value placed before the script is decoded and executed with the script as it was. -/
theorem placedWordRunsNext : Obligations.PlacedWordRunsNext := by
  intro s nbits w i h
  cases h
  rw [step, nextTurn_host (s := State.withFetchWord s nbits w) rfl]
  rfl

/-- A write to `CTRL` with bit 1 set is `RST` (43_host_commands.md R88). -/
theorem writeReg_ctrl_rst (s : State) {v : RegValue} (h1 : v.getLsbD 1 = true) : writeReg 0 v s = softReset s := by
  simp [writeReg, h1]

theorem writeReg_ctrl_start (s : State) {v : RegValue} (h1 : v.getLsbD 1 = false) (h0 : v.getLsbD 0 = true) :
    writeReg 0 v s = startCommand s := by
  simp only [writeReg, h1, h0, if_true, Bool.false_eq_true, if_false]

theorem writeReg_ctrl_none (s : State) {v : RegValue} (h1 : v.getLsbD 1 = false) (h0 : v.getLsbD 0 = false) :
    writeReg 0 v s = s := by
  simp only [writeReg, h1, h0, if_true, Bool.false_eq_true, if_false]

/-- Settles O54: the tests of `writeReg` on `CTRL`, bit 1 before bit 0. -/
theorem wrregCtrlIsACommand : Obligations.WrregCtrlIsACommand := by
  intro s v
  refine ⟨writeReg 0 v s, rfl, fun h1 => ?_, fun h1 h0 => ?_, fun h1 h0 => ?_⟩
  · rw [writeReg_ctrl_rst s h1]
    rfl
  · rw [writeReg_ctrl_start s h1 h0]
    rfl
  · exact writeReg_ctrl_none s h1 h0

/-! ### the two directions -/

/-- Settles O16: a code operation is what some code is read as, and has that code's bits; a host command is read back from
its transaction. -/
theorem encodedOperationDecodes : Obligations.EncodedOperationDecodes := by
  intro c i rest h
  cases hi : isCode i with
  | true =>
    obtain ⟨code, hcode, rfl⟩ := exists_classify_eq hi h
    rw [encode_classify]
    exact decodeBits_bitsOf_append (legal_of_wellFormed hi h) hcode rest
  | false =>
    obtain ⟨t, ht, hdecode⟩ := decodeCmd_encode hi h
    rw [ht]
    exact hdecode

/-- Settles O17: the operation is the class of the number the bits write, and that number's `CW` bits are the string. -/
theorem decodedCodeEncodesBack : Obligations.DecodedCodeEncodesBack := by
  intro c bits hl hlen
  obtain ⟨h1, h2⟩ := cw_bounds_of_legal hl
  have hlt : assemble bits < 2 ^ c.cw.toNat := hlen ▸ assemble_lt bits
  have hvalue := toNat_ofNat_of_lt_codeSpace hl hlt
  refine ⟨_, decodeBits_exact h1 h2 hlen, wellFormed_classify hl (hvalue.symm ▸ hlt), ?_⟩
  rw [encode_classify, hvalue, encodeCode, ← hlen, bitsOf_assemble]

/-! ### bits in bytes -/

@[simp] theorem bitsOf_zero_value (n : Nat) : bitsOf n 0 = List.replicate n false := by
  induction n with
  | zero => rfl
  | succ n ih => simp [bitsOf, ih, List.replicate_succ]

/-- Bits read back in a greater width are followed by zeros. -/
theorem bitsOf_assemble_of_length_le {l : List Bool} {n : Nat} (h : l.length ≤ n) :
    bitsOf n (assemble l) = l ++ List.replicate (n - l.length) false := by
  induction l generalizing n with
  | nil => exact bitsOf_zero_value n
  | cons b l ih =>
    obtain ⟨n, rfl⟩ := Nat.exists_eq_add_one_of_ne_zero (Nat.ne_zero_of_lt h)
    have hbit : ((b.toNat + 2 * assemble l) % 2 == 1) = b := by cases b <;> simp
    have hrest : (b.toNat + 2 * assemble l) / 2 = assemble l := by have := b.toNat_lt; omega
    rw [assemble, bitsOf, hbit, hrest, ih (Nat.le_of_succ_le_succ h), List.length_cons, Nat.add_sub_add_right,
      List.cons_append]

/-- The bits of a packed byte: those put into it, and zeros up to 8. -/
theorem bitsOf_packedByte {l : List Bool} (h : l.length ≤ 8) :
    bitsOf 8 (BitVec.ofNat 8 (assemble l)).toNat = l ++ List.replicate (8 - l.length) false := by
  have hlt : assemble l < 2 ^ 8 := (assemble_lt l).trans_le (Nat.pow_le_pow_right (by norm_num) h)
  rw [BitVec.toNat_ofNat, Nat.mod_eq_of_lt hlt, bitsOf_assemble_of_length_le h]

/-- With a byte of fuel for every bit, no byte is missing. -/
theorem packBitsFuel_length {fuel : Nat} {l : List Bool} (h : l.length ≤ fuel) :
    (packBitsFuel fuel l).length = (l.length + 7) / 8 := by
  induction fuel, l using packBitsFuel.induct with
  | case1 l =>
    obtain rfl := List.length_eq_zero_iff.mp (Nat.le_zero.mp h)
    rfl
  | case2 => rfl
  | case3 fuel b l ih =>
    rw [List.length_cons] at h
    rw [packBitsFuel, List.length_cons, ih (by simp; omega)]
    simp only [List.length_drop, List.length_cons]
    omega

/-- With a byte of fuel for every bit, the packed bytes hold the bits and then the zeros that fill the last byte. -/
theorem bitsOfBytes_packBitsFuel {fuel : Nat} {l : List Bool} (h : l.length ≤ fuel) :
    bitsOfBytes (packBitsFuel fuel l) = l ++ List.replicate (8 * ((l.length + 7) / 8) - l.length) false := by
  induction fuel, l using packBitsFuel.induct with
  | case1 l =>
    obtain rfl := List.length_eq_zero_iff.mp (Nat.le_zero.mp h)
    rfl
  | case2 => rfl
  | case3 fuel b l ih =>
    rw [List.length_cons] at h
    rw [packBitsFuel, bitsOfBytes, ih (by simp; omega), bitsOf_packedByte (List.length_take_le ..)]
    have hpos : 0 < (b :: l).length := Nat.succ_pos _
    generalize b :: l = bits at hpos ⊢
    rcases Nat.lt_or_ge bits.length 8 with hlen | hlen
    · have hpad : 8 * ((bits.length + 7) / 8) = 8 := by omega
      rw [List.take_of_length_le hlen.le, List.drop_of_length_le hlen.le, hpad]
      simp
    · have hpad : 8 * ((bits.length - 8 + 7) / 8) - (bits.length - 8) = 8 * ((bits.length + 7) / 8) - bits.length := by
        omega
      rw [List.length_take_of_le hlen, Nat.sub_self, List.replicate_zero, List.append_nil, List.length_drop, hpad,
        ← List.append_assoc, List.take_append_drop]

/-- Settles O23: `packBits` has fuel for every bit. -/
theorem packedBitsReadBack : Obligations.PackedBitsReadBack := fun _ =>
  ⟨packBitsFuel_length le_rfl, bitsOfBytes_packBitsFuel le_rfl⟩

/-! ### spelled words -/

/-- Settles O20, word by word. -/
theorem spelledWordsDecode : Obligations.SpelledWordsDecode :=
  ⟨rfl, rfl, rfl, rfl, rfl, rfl, rfl, rfl⟩

end Sys2Proof.Machine
end

section
/-! SUPPORT. The core's turn: what it does outside a run, on a fetched code and past the payload's end; that it moves a run
on, so that every run ends; and the code width under a code. -/

namespace Sys2Proof.Machine

/-! ### the fetch -/

/-- Settles O5: every other way a step can go is in a run or not the core's. -/
theorem coreIsStillOutsideRun : Obligations.CoreIsStillOutsideRun := by
  intro s hr hc
  cases stepCase s with
  | still _ _ he => exact he
  | pastEnd _ hr' => exact absurd hr' hr
  | code _ hr' => exact absurd hr' hr
  | badWidth _ hr' => exact absurd hr' hr
  | host _ _ ha => exact absurd hc (not_coreTurn_of_host ha)
  | hardReset _ ha => exact absurd hc (not_coreTurn_of_hardReset ha)

/-- In a run the core's turn, with a width that has a code format, goes by the fetch bound (40_fetch_and_width.md R62). -/
theorem step_of_running {s : State} (hc : CoreTurn s) (hr : s.status = .run) (hw : 3 ≤ s.cw.toNat ∧ s.cw.toNat ≤ 12) :
    pastEnd s = true ∧ step s = .next (raise .unexpectedEndOfStream (setAgenda s.agenda.tail s)) ∨
      pastEnd s = false
        ∧ step s = exec (classify (codeCtx s) (fetchedCode s)) (advance (setAgenda s.agenda.tail s)) := by
  cases stepCase s with
  | still _ hr' => exact absurd hr hr'
  | pastEnd _ _ hp he => exact .inl ⟨hp, he⟩
  | code _ _ hp _ he => exact .inr ⟨hp, he⟩
  | badWidth _ _ hw' => exact absurd hw hw'
  | host _ _ ha => exact absurd hc (not_coreTurn_of_host ha)
  | hardReset _ ha => exact absurd hc (not_coreTurn_of_hardReset ha)

/-- Only a width of 3 to 12 bits has a code format (30_encoding.md R51). -/
theorem cw_bounds_of_decodeBits {c : CodeCtx} {bits : List Bool} {r : Instr × List Bool} (h : decodeBits c bits = .ok r) :
    3 ≤ c.cw.toNat ∧ c.cw.toNat ≤ 12 := by
  unfold decodeBits at h
  split at h
  · cases h
  · rename_i hw
    simp only [Config.minCw, Config.maxCw] at hw
    omega

/-- A used-up script has no move to take off. -/
theorem setAgenda_tail_of_nil {s : State} (h : s.agenda = []) : setAgenda s.agenda.tail s = s := by
  rw [h, List.tail_nil, ← h]
  rfl

/-- Settles O1: the bits that decode to `i` are those of the fetched code, whose class is then `i`. -/
theorem stepRunsTheFetchedCode : Obligations.StepRunsTheFetchedCode := by
  intro s i hr hp hd
  have hw := cw_bounds_of_decodeBits hd
  have hi : classify (codeCtx s) (fetchedCode s) = i := by
    cases (decodeBits_exact hw.1 hw.2 (bitsAt_length ..)).symm.trans hd
    rfl
  have hstep (hc : CoreTurn s) : step s = exec i (advance (setAgenda s.agenda.tail s)) := by
    rcases step_of_running hc hr hw with ⟨hp', -⟩ | ⟨-, he⟩
    · exact absurd ((pastEnd_eq_true s).mp hp') (Nat.not_lt.mpr hp)
    · rw [he, hi]
  refine ⟨fun ha => ?_, fun rest ha => ?_⟩
  · rw [hstep (.inl ha), setAgenda_tail_of_nil ha]
    rfl
  · rw [hstep (.inr ⟨rest, ha⟩), ha]
    rfl

/-! ### the end of a run -/

/-- A core step of a run ends it, or moves `BITPOS` on by at least 3, the least code width, towards the end of the payload,
which stays where it is (40_fetch_and_width.md R65). -/
theorem coreStep_ends_or_advances {s t : State} (hi : Inv s) (hr : s.status = .run) (hc : CoreTurn s)
    (h : step s = .next t) :
    (t.status = .done ∨ t.status = .fault) ∨
      t.status = .run ∧ s.bitpos.toNat + 3 ≤ t.bitpos.toNat ∧ t.inlen = s.inlen ∧ t.agenda = s.agenda.tail := by
  obtain ⟨-, -, -, -, hrun⟩ := hi
  have hw := cw_bounds_of_widthInv (hrun hr).1
  rcases step_of_running hc hr hw with ⟨-, he⟩ | ⟨hp, he⟩
  · cases he.symm.trans h
    exact .inl (.inr rfl)
  · have hcode := codeCase (classify_isCode _ _) (he.symm.trans h)
    obtain ⟨-, hinlen, -, ⟨hagenda, -⟩, hpos⟩ := frame_of_codeCase hcode
    have hadv : t.bitpos.toNat = s.bitpos.toNat + s.cw.toNat := by
      rw [hpos]
      exact advance_bitpos_toNat (s := setAgenda s.agenda.tail s) hp
    rcases status_err_of_codeCase hcode with ⟨h1, -⟩ | ⟨-, h1, -⟩ | ⟨h1, -⟩
    · exact .inr ⟨h1.trans hr, by omega, hinlen, hagenda⟩
    · exact .inl (.inl h1)
    · exact .inl (.inr h1)

/-- Settles O14: a run that has ended is not in `RUN`. -/
theorem coreStepMovesOnOrEnds : Obligations.CoreStepMovesOnOrEnds := by
  intro s t hi hr hc h
  rcases coreStep_ends_or_advances hi hr hc h with (he | he) | ⟨-, hpos, -⟩
  · exact .inl (by simp [he])
  · exact .inl (by simp [he])
  · exact .inr hpos

/-- With no host move left a step always completes: what alone stops the machine is a host's `LOAD`. -/
theorem step_completes_of_agenda_nil {s : State} (hi : Inv s) (ha : s.agenda = []) : ∃ t, step s = .next t := by
  rcases onlyLoadIntoRunningPayloadStops s hi with ht | ⟨-, -, _, _, _, ha', -⟩
  · exact ht
  · cases ha.symm.trans ha'

/-- A run of `k + 1` steps is one step and a run of `k`. -/
theorem run_succ_of_step {s t : State} (h : step s = .next t) (k : Nat) :
    Host.Core.run Sys2Proof.core (k + 1) s = Host.Core.run Sys2Proof.core k t := by
  have hstep : Sys2Proof.core.step s = .next t := h
  simp only [Host.Core.run, hstep]

/-- A run left to itself, with fewer than `3 * n` bits of the payload before it, ends within `n` steps. -/
theorem run_ends_within (n : Nat) {s : State} (hi : Inv s) (hr : s.status = .run) (ha : s.agenda = [])
    (hn : 8 * s.inlen.toNat < s.bitpos.toNat + 3 * n) :
    ∃ k t, k ≤ n ∧ Host.Core.run Sys2Proof.core k s = .next t ∧ (t.status = .done ∨ t.status = .fault) := by
  induction n generalizing s with
  | zero =>
    obtain ⟨-, -, -, -, hrun⟩ := hi
    obtain ⟨-, -, -, hpos, -⟩ := hrun hr
    omega
  | succ n ih =>
    obtain ⟨u, hu⟩ := step_completes_of_agenda_nil hi ha
    rcases coreStep_ends_or_advances hi hr (.inl ha) hu with hend | ⟨hr', hpos, hinlen, ha'⟩
    · exact ⟨1, u, by omega, run_succ_of_step hu 0, hend⟩
    · have hi' := everyStepKeepsTheInvariant s u hi hu
      obtain ⟨k, t, hk, hrun, ht⟩ := ih hi' hr' (by rw [ha', ha, List.tail_nil]) (by rw [hinlen]; omega)
      exact ⟨k + 1, t, by omega, (run_succ_of_step hu k).trans hrun, ht⟩

/-- Settles O15: `floor(8 * INLEN / 3) + 1` steps of at least 3 bits each are more than the payload has. -/
theorem everyRunEnds : Obligations.EveryRunEnds := fun _ hi hr ha =>
  run_ends_within _ hi hr ha (by omega)

/-! ### the code width -/

/-- Growth keeps `CW`, or adds one when the new `DLEN` is `1 << CW` and `CW < 12` (40_fetch_and_width.md R67). -/
theorem grow_cw_cases (l : List Symbol) {s : State} (hf : s.dlen.toNat < 4096) :
    (grow l s).cw = s.cw ∨
      (grow l s).cw.toNat = s.cw.toNat + 1 ∧ (grow l s).dlen.toNat = 2 ^ s.cw.toNat ∧ s.cw.toNat < 12 := by
  have hcw := grownCw_toNat (s.dlen.toNat + 1) s.cw
  by_cases hg : s.dlen.toNat + 1 = 2 ^ s.cw.toNat ∧ s.cw.toNat < 12
  · rw [if_pos hg] at hcw
    exact .inr ⟨hcw, (grow_dlen_toNat l hf).trans hg.1, hg.2⟩
  · rw [if_neg hg] at hcw
    exact .inl (BitVec.eq_of_toNat_eq hcw)

/-- Growth changes `DLEN`: it does not wrap. -/
theorem grow_dlen_ne (l : List Symbol) {s : State} (hf : s.dlen.toNat < 4096) : (grow l s).dlen ≠ s.dlen := fun h => by
  have hd := grow_dlen_toNat l hf
  rw [h] at hd
  omega

/-- Settles O35: of these codes only one that grows the dictionary writes `CW`. -/
theorem widthGrowsByAtMostOne : Obligations.WidthGrowsByAtMostOne := by
  intro s t i hcode hclr h
  cases codeCase hcode h with
  | clear hi => exact absurd hi hclr
  | finish _ ht => exact .inl (ht ▸ rfl)
  | emit _ _ _ _ _ ht => exact .inl (ht ▸ rfl)
  | grow _ _ k p _ _ hf _ _ ht =>
    subst ht
    rcases grow_cw_cases (p ++ [k]) hf with hk | ⟨hcw, hd, hlt⟩
    · exact .inl hk
    · exact .inr ⟨hcw, grow_dlen_ne (p ++ [k]) hf, hd, hlt⟩
  | raise _ _ ht => exact .inl (ht ▸ rfl)

/-- A code keeps I1 to I4 (10_state.md R31). -/
theorem widthInv_of_codeCase {i : Instr} {s t : State} (hc : CodeCase i s t) (hw : WidthInv s) : WidthInv t := by
  cases hc with
  | clear _ hl ht => exact ht ▸ widthInv_clear hl
  | finish _ ht => exact ht ▸ hw
  | emit _ _ _ _ _ ht => exact ht ▸ hw
  | grow _ _ k p _ _ hf _ _ ht =>
    have hg := widthInv_grow (p ++ [k]) hw hf
    exact ht ▸ hg
  | raise _ _ ht => exact ht ▸ hw

/-- `1 << w` is written in `w + 1` bits. -/
theorem bitlen_two_pow (w : Nat) : bitlen (2 ^ w) = w + 1 :=
  bitlen_eq (Nat.le_add_left ..) le_rfl (Nat.pow_lt_pow_succ (by norm_num))

/-- Settles O36: the code keeps I3, which says `CW` as a function of `DLEN`. -/
theorem widthThresholds : Obligations.WidthThresholds := by
  intro s t i w hcode _ hw h _ hd
  obtain ⟨-, -, -, -, -, hcw, -⟩ := widthInv_of_codeCase (codeCase hcode h) hw
  rw [hcw, hd, bitlen_two_pow]
  rfl

end Sys2Proof.Machine
end

section
/-! SUPPORT. The control codes: `Clear()` as the meaning of `CLR`, that it and an accepted START leave a cleared state, and
`EOI`. -/

namespace Sys2Proof.Machine

/-- `CLR` with a legal `MINCS` is `Clear()` (41_control_codes.md R72). -/
theorem exec_clr_of_mincsLegal {s : State} (h : mincsLegal s.mincs = true) : exec .clr s = .next (clear s) :=
  if_pos h

/-- `Clear()` reads only `MINCS`, which it does not write. -/
@[simp] theorem clear_clear (s : State) : clear (clear s) = clear s := rfl

/-- What an accepted START writes besides `Clear()` is nothing that `Clear()` writes (43_host_commands.md R90). -/
@[simp] theorem clear_beginRun (s : State) : clear (beginRun s) = beginRun s := rfl

/-- Settles O24: the operation is `clear`, its dictionary the table of 41_control_codes.md R74, its registers the numbers of
`clear_toNat`; the rest of the frame is that of every code. -/
theorem clrClears : Obligations.ClrClears := by
  intro s hlow hhigh
  have hl : mincsLegal s.mincs = true := (mincsLegal_iff _).mpr ⟨hlow, hhigh⟩
  have hexec := exec_clr_of_mincsLegal hl
  obtain ⟨hdlen, hcw, hprev⟩ := clear_toNat hl
  obtain ⟨hhost, hmodel, hpos⟩ := codesLeaveTheHostSide s (clear s) .clr rfl hexec
  exact ⟨clear s, hexec, sparseGet_clearedDict s.mincs, hdlen, hcw, hprev, rfl, rfl, rfl, rfl, hpos, hhost, hmodel⟩

/-- Settles O25: both leave a state with a legal `MINCS` that `Clear()` maps to itself. -/
theorem repeatedClrChangesNothing : Obligations.RepeatedClrChangesNothing := by
  refine fun s t => ⟨fun h => ?_, fun hr hlow hhigh h => ?_⟩
  · obtain ⟨hl, rfl⟩ := execClr_cases h
    rw [exec_clr_of_mincsLegal (s := clear s) hl, clear_clear]
  · have hl : mincsLegal s.mincs = true := (mincsLegal_iff _).mpr ⟨hlow, hhigh⟩
    obtain rfl : startCommand s = t := Host.Outcome.next.inj h
    rw [startCommand_accepted s hr hl, exec_clr_of_mincsLegal (s := beginRun s) hl, clear_beginRun]

/-- Settles O26: `EOI` is `finish`, the one write of `STATUS` (41_control_codes.md R75). -/
theorem eoiEndsTheRun : Obligations.EoiEndsTheRun := fun _ => rfl

end Sys2Proof.Machine
end

section
/-! SUPPORT. The data codes: which way `KNOWN` and `NEXT` go, the dictionary after a growth, and what these codes add and
emit. -/

namespace Sys2Proof.Machine

/-! ### the way a data code goes -/

/-- `KNOWN` emits and adds nothing straight after a clear code and with a full dictionary (42_data_codes.md R80). -/
theorem exec_known_of_no_growth {s : State} {code : Code} {k : Symbol} {l : List Symbol}
    (hl : lookup s code.toNat = .ok (k, l)) (hc : s.prev.toNat = clearOf s.mincs ∨ 4096 ≤ s.dlen.toNat) :
    exec (.known code) s = .next (setPrev code (emit l s)) := by
  rw [← prevIsClear_eq_true, ← dictFull_eq_true, ← Bool.or_eq_true] at hc
  simp only [exec, execKnown, hl, if_pos hc]

/-- `KNOWN` in the other states emits and grows, in either order: the two write different fields and neither reads what the
other writes (42_data_codes.md R80). -/
theorem exec_known_of_growth {s : State} {code : Code} {j k : Symbol} {l p : List Symbol}
    (hl : lookup s code.toNat = .ok (k, l)) (hc : s.prev.toNat ≠ clearOf s.mincs) (hf : s.dlen.toNat < 4096)
    (hp : lookup s s.prev.toNat = .ok (j, p)) :
    exec (.known code) s = .next (setPrev code (emit l (grow (p ++ [k]) s))) := by
  rw [← prevIsClear_eq_false] at hc
  rw [← dictFull_eq_false] at hf
  simp only [exec, execKnown, hl, hc, hf, hp, Bool.or_self, Bool.false_eq_true, if_false]
  rfl

/-- `NEXT` straight after a clear code is the fault entry (42_data_codes.md R82). -/
theorem exec_next_of_prev_clear {s : State} {code : Code} (hc : s.prev.toNat = clearOf s.mincs) :
    exec (.next code) s = .next (raise .invalidLzwCode s) :=
  if_pos ((prevIsClear_eq_true s).mpr hc)

/-- `NEXT` in the other states adds and emits the same sequence (42_data_codes.md R82). -/
theorem exec_next_of_growth {s : State} {code : Code} {k : Symbol} {p : List Symbol}
    (hc : s.prev.toNat ≠ clearOf s.mincs) (hf : s.dlen.toNat < 4096) (hp : lookup s s.prev.toNat = .ok (k, p)) :
    exec (.next code) s = .next (setPrev code (emit (p ++ [k]) (grow (p ++ [k]) s))) := by
  rw [← prevIsClear_eq_false] at hc
  rw [← dictFull_eq_false] at hf
  simp only [exec, execNext, hc, hf, hp, Bool.false_eq_true, if_false]

/-! ### growth -/

/-- Growth assigns slot `DLEN` and no other (40_fetch_and_width.md R67). -/
theorem sparseGet_grow_dict (l : List Symbol) (s : State) (c : Nat) :
    sparseGet (grow l s).dict c = if c = s.dlen.toNat then some (.seq l) else sparseGet s.dict c := by
  rw [grow_dict]
  split
  case isTrue h => rw [h, sparseGet_set_same]
  case isFalse h => exact sparseGet_set_other _ _ h

/-- Settles O28: the two lookups answer, so `KNOWN` grows; slot, `DLEN` and `CW` are those of `grow`. -/
theorem knownEmitsAndGrows : Obligations.KnownEmitsAndGrows := by
  intro s code k l p hcode hc hf hprev hp
  have hl : lookup s code.toNat = .ok (k, k :: l) := (lookup_eq_ok_iff ..).mpr ⟨hcode, rfl⟩
  obtain ⟨j, -, hj⟩ := lookup_seq hprev hp
  have hexec := exec_known_of_growth hl hc hf hj
  obtain ⟨hhost, hmodel, hpos⟩ := codesLeaveTheHostSide s _ (.known code) rfl hexec
  exact ⟨_, hexec, rfl, rfl, rfl, sparseGet_grow_dict (p ++ [k]) s, grow_dlen_toNat (p ++ [k]) hf, grownCw_toNat _ _, rfl,
    rfl, hpos, hhost, hmodel⟩

/-- Settles O29: the previous entry's lookup answers its first symbol, so `NEXT` grows; slot, `DLEN` and `CW` are those of
`grow`. -/
theorem nextAddsAndEmits : Obligations.NextAddsAndEmits := by
  intro s code k l hc hf hprev
  have hl : lookup s s.prev.toNat = .ok (k, k :: l) := (lookup_eq_ok_iff ..).mpr ⟨hprev, rfl⟩
  have hexec := exec_next_of_growth (code := code) hc hf hl
  obtain ⟨hhost, hmodel, hpos⟩ := codesLeaveTheHostSide s _ (.next code) rfl hexec
  have hlen : (k :: l ++ [k]).length = l.length + 2 := by simp
  exact ⟨_, hexec, rfl, congrArg (s.outlen + ·) hlen, rfl, sparseGet_grow_dict (k :: l ++ [k]) s,
    grow_dlen_toNat (k :: l ++ [k]) hf, grownCw_toNat _ _, rfl, rfl, hpos, hhost, hmodel⟩

/-- Settles O33: `KNOWN` emits alone or grows, `NEXT` leaves the run or grows, and growth needs both conditions. -/
theorem dataCodeAddsAtMostOneEntry : Obligations.DataCodeAddsAtMostOneEntry := by
  intro s t i code hi h _ ht _
  have hgrow (q : List Symbol) (hc : prevIsClear s = false) (hf : dictFull s = false) :
      (grow q s).dlen.toNat =
        if s.prev.toNat ≠ 2 ^ s.mincs.toNat ∧ s.dlen.toNat < 4096 then s.dlen.toNat + 1 else s.dlen.toNat := by
    rw [dictFull_eq_false] at hf
    rw [grow_dlen_toNat q hf, if_pos ⟨(prevIsClear_eq_false s).mp hc, hf⟩]
  rcases hi with rfl | rfl
  · obtain ⟨k, l, -, ⟨hc, rfl⟩ | ⟨hc, hf, j, p, -, rfl⟩⟩ := execKnown_cases h
    · rw [prevIsClear_eq_true, dictFull_eq_true] at hc
      exact (if_neg fun ⟨hne, hlt⟩ => hc.elim hne (Nat.not_le.mpr hlt)).symm
    · exact hgrow (p ++ [k]) hc hf
  · obtain ⟨-, rfl⟩ | ⟨hc, hf, k, p, -, rfl⟩ := execNext_cases h
    · cases ht
    · exact hgrow (p ++ [k]) hc hf

/-- Settles O34: the previous entry starts with the symbol `NEXT` puts after it. -/
theorem nextEmitsEqualEnds : Obligations.NextEmitsEqualEnds := by
  intro s t code h hc
  obtain ⟨hclear, -⟩ | ⟨-, -, k, p, hp, rfl⟩ := execNext_cases h
  · exact absurd ((prevIsClear_eq_true s).mp hclear) hc
  · obtain ⟨-, hhead⟩ := (lookup_eq_ok_iff ..).mp hp
    obtain ⟨l, rfl⟩ := List.head?_eq_some_iff.mp hhead
    exact ⟨k, l, rfl⟩

/-! ### no growth -/

/-- Settles O27: the lookup of a non-empty sequence answers it, and `KNOWN` does not grow. -/
theorem knownEmitsWithoutGrowth : Obligations.KnownEmitsWithoutGrowth := by
  intro s code l hcode hne hc
  obtain ⟨k, -, hl⟩ := lookup_seq hcode hne
  exact exec_known_of_no_growth hl hc

/-- Settles O30: the fault entry writes `STATUS` and `ERR` alone (60_exceptions.md R99). -/
theorem nextAfterClearFaults : Obligations.NextAfterClearFaults := fun _ _ hc =>
  exec_next_of_prev_clear hc

/-- Settles O31: `BAD` is the fault entry, whatever the code and the state (42_data_codes.md R84). -/
theorem badFaults : Obligations.BadFaults := fun _ _ => ⟨rfl, rfl⟩

end Sys2Proof.Machine
end

section
/-! SUPPORT. The six host commands: what each answers and leaves unchanged, and what survives every step but a write to
`CTRL` or a hardware reset. -/

namespace Sys2Proof.Machine

/-! ### a command as a step -/

/-- Settles O2: the host's turn is to run the transaction's command, and a turn to run is `exec`. -/
theorem stepRunsTheHostCommand : Obligations.StepRunsTheHostCommand := by
  intro s c rest ha
  rw [step, nextTurn_host ha]
  rfl

/-! ### START and RST -/

/-- Settles O48: an accepted START is `beginRun`, whose dictionary and registers are those of `Clear()`. -/
theorem startBeginsARun : Obligations.StartBeginsARun := by
  intro s hr hlow hhigh
  have hl : mincsLegal s.mincs = true := (mincsLegal_iff _).mpr ⟨hlow, hhigh⟩
  have hexec : exec .start s = .next (beginRun s) := congrArg _ (startCommand_accepted s hr hl)
  obtain ⟨hdlen, hcw, hprev⟩ := clear_toNat hl
  exact ⟨beginRun s, hexec, rfl, rfl, rfl, rfl, rfl, sparseGet_clearedDict s.mincs, hdlen, hcw, hprev,
    ⟨rfl, rfl, byteAt_congr rfl rfl⟩, rfl, rfl, rfl, rfl⟩

/-- Settles O50: `START` is `startCommand`, which a run in progress turns away. -/
theorem startIsIgnoredDuringRun : Obligations.StartIsIgnoredDuringRun := fun s hr =>
  congrArg _ (startCommand_running s hr)

/-- Settles O52: `RST` is `softReset`, which empties the dictionary and writes none of the host's registers, `IN` or the
model's own fields. -/
theorem rstResets : Obligations.RstResets := fun s =>
  ⟨softReset s, rfl, rfl, rfl, rfl, rfl, rfl, rfl, rfl, rfl, sparseGet_nil, ⟨rfl, rfl, byteAt_congr rfl rfl⟩,
    rfl, rfl, rfl, rfl⟩

/-! ### register writes -/

theorem exec_wrreg (n : Nat) (v : RegValue) (s : State) : exec (.wrreg n v) s = .next (writeReg n v s) := rfl

theorem writeReg_mincs (v : RegValue) (s : State) : writeReg 1 v s = writeMincs v s := rfl

theorem writeReg_inlen (v : RegValue) (s : State) : writeReg 2 v s = writeInlen v s := rfl

/-- The registers from 3 on are not the host's to write (10_state.md R19). -/
theorem writeReg_readOnly {n : Nat} (hn : 3 ≤ n) (v : RegValue) (s : State) : writeReg n v s = s := by
  rw [writeReg, if_neg (by omega), if_neg (by omega), if_neg (by omega)]

/-- Settles O53: registers 1 and 2 by whether a run is in progress, the others by their number. -/
theorem wrregWritesConfiguration : Obligations.WrregWritesConfiguration := by
  refine fun s v => ⟨fun hr => ⟨?_, ?_⟩, fun hr => ⟨?_, ?_⟩, fun n hn => ?_⟩
  · rw [exec_wrreg, writeReg_mincs, writeMincs_idle s v hr, BitVec.setWidth_eq_extractLsb' (by decide)]
  · rw [exec_wrreg, writeReg_inlen, writeInlen_idle s v hr, BitVec.setWidth_eq_extractLsb' (by decide)]
  · rw [exec_wrreg, writeReg_mincs, writeMincs_running s v hr]
  · rw [exec_wrreg, writeReg_inlen, writeInlen_running s v hr]
  · rw [exec_wrreg, writeReg_readOnly hn]

/-! ### register reads -/

theorem readReg_status (s : State) : readReg s 3 = (statusNumber s.status).toNat := rfl

theorem readReg_err (s : State) : readReg s 4 = (errNumber s.err).toNat := rfl

/-- There is no register from 10 on (10_state.md R19). -/
theorem readReg_absent (s : State) {n : Nat} (hn : 10 ≤ n) : readReg s n = 0 := by
  unfold readReg
  iterate 9 rw [if_neg (by omega)]

/-- Settles O55: the answer is `readReg`, register by register; the numbers of `STATUS` and `ERR` value by value. -/
theorem rdregAnswersTheRegister : Obligations.RdregAnswersTheRegister := by
  refine fun s n => ⟨readReg s n, rfl, ?_, ?_, ?_, ?status, ?err, ?_, ?_, ?_, ?_, ?_, readReg_absent s⟩ <;> rintro rfl
  case status =>
    rw [readReg_status]
    cases s.status <;> rfl
  case err =>
    rw [readReg_err]
    cases s.err <;> rfl
  all_goals rfl

/-! ### LOAD and DRAIN -/

/-- A `LOAD` that completes writes its byte and nothing else (43_host_commands.md R93). -/
theorem frame_of_exec_load {a : BitVec 32} {b : Byte} {s t : State} (h : exec (.load a b) s = .next t) :
    byteAt t a.toNat = b ∧ (∀ c, c ≠ a.toNat → byteAt t c = byteAt s c) ∧ CoreSideSame s t ∧ t.mincs = s.mincs
      ∧ t.inlen = s.inlen ∧ ModelSideSame s t := by
  obtain ⟨hcore, hm, hn, -, -⟩ := readsAndLoadsLeaveTheCoreSide s t _ (.inr (.inr ⟨a, b, rfl⟩)) h
  obtain ⟨-, rfl⟩ := execLoad_cases h
  exact ⟨byteAt_writeByte_same s a b, fun _ hc => byteAt_writeByte_other s a b hc, hcore, hm, hn, rfl, rfl, rfl, rfl⟩

/-- Settles O56: outside a run no `LOAD` is refused. -/
theorem loadWritesOneByte : Obligations.LoadWritesOneByte := by
  intro s a b hr
  have hexec : exec (.load a b) s = .next (writeByte a b s) :=
    (execLoad_eq a b s).trans (if_neg fun hc => hr hc.1)
  exact ⟨_, hexec, frame_of_exec_load hexec⟩

/-- A `DRAIN` of an emitted symbol answers it (43_host_commands.md R94). -/
theorem exec_drain_of_getElem? {i : Nat} {s : State} {k : Symbol} (hk : s.out[i]? = some k) :
    exec (.drain i) s = .next (answer (.sym k) s) := by
  simp only [exec, execDrain, hk]

/-- Settles O58: below `OUTLEN`, the length of `OUT`, there is a symbol. -/
theorem drainAnswersTheSymbol : Obligations.DrainAnswersTheSymbol := by
  intro s i hlen hi
  have hk : s.out[i]? = some s.out[i] := List.getElem?_eq_getElem (hlen ▸ hi)
  exact ⟨_, hk, exec_drain_of_getElem? hk⟩

/-! ### what is emitted stays -/

/-- Only a write to `CTRL` touches `OUT`. -/
theorem out_of_hostCase {c : HostCmd} {s t : State} (hc : HostCase c s t) (hctrl : ∀ v, c ≠ .write 0 v) :
    t.out = s.out := by
  cases hc with
  | reset v hc => exact absurd hc (hctrl v)
  | start v hc => exact absurd hc (hctrl v)
  | mincs _ _ ht => rw [ht]
  | inlen _ _ ht => rw [ht]
  | load _ _ ht => rw [ht, writeByte_out]
  | answered _ _ ht => rw [ht]

/-- Settles O42: a code appends to `OUT`, and the other moves allowed here do not write it. -/
theorem emittedSymbolStays : Obligations.EmittedSymbolStays := by
  intro s t i hi h hctrl hreset
  cases stepCase s with
  | still _ _ he =>
    cases he.symm.trans h
    rfl
  | pastEnd _ _ _ he =>
    cases he.symm.trans h
    rfl
  | code _ _ _ _ he =>
    obtain ⟨l, hout, -, -⟩ := codesOnlyAppendOutput _ t _ (classify_isCode _ _) (he.symm.trans h)
    rw [hout]
    exact List.getElem?_append_left hi
  | badWidth _ _ _ he => cases he.symm.trans h
  | host c rest ha he =>
    have hout := out_of_hostCase (hostCase (he.symm.trans h)) fun v hc => hctrl v rest (hc ▸ ha)
    rw [hout, setAgenda_out]
  | hardReset rest ha => exact absurd ha (hreset rest)

/-! ### a run freezes its configuration -/

/-- A write transaction is the register write, also where it is read as `RST` or `START` (43_host_commands.md R88). -/
theorem exec_decodeCmd_write (n : Nat) (v : RegValue) (s : State) :
    exec (decodeCmd (.write n v)) s = .next (writeReg n v s) := by
  simp only [decodeCmd]
  split
  case isTrue h =>
    obtain ⟨rfl, h1⟩ := h
    rw [writeReg_ctrl_rst s h1]
    rfl
  case isFalse h =>
    split
    case isTrue h' =>
      obtain ⟨rfl, h0⟩ := h'
      rw [writeReg_ctrl_start s (by simpa using h) h0]
      rfl
    case isFalse => rfl

/-- In a run no register write stores `MINCS` or `INLEN` (43_host_commands.md R91). -/
theorem writeReg_config_of_running (n : Nat) (v : RegValue) {s : State} (hr : s.status = .run) :
    (writeReg n v s).mincs = s.mincs ∧ (writeReg n v s).inlen = s.inlen := by
  rcases writeReg_cases n v s with he | ⟨-, he⟩ | ⟨-, he⟩ | ⟨hr', -⟩ | ⟨hr', -⟩
  · exact ⟨by rw [he], by rw [he]⟩
  · exact ⟨by rw [he, softReset_mincs], by rw [he, softReset_inlen]⟩
  · exact ⟨by rw [he, startCommand_mincs], by rw [he, startCommand_inlen]⟩
  · exact absurd hr hr'
  · exact absurd hr hr'

/-- The configuration and the payload of a run are the same in two states: `MINCS`, `INLEN`, the bytes of `IN` below
`INLEN`. -/
def SameRunConfig (s t : State) : Prop :=
  t.mincs = s.mincs ∧ t.inlen = s.inlen ∧ ∀ a, a < s.inlen.toNat → byteAt t a = byteAt s a

theorem sameRunConfig_of_hostSideSame {s t : State} (h : HostSideSame s t) : SameRunConfig s t := by
  obtain ⟨hm, hn, hb⟩ := h
  exact ⟨hm, hn, fun a _ => hb a⟩

/-- In a run no host transaction changes the configuration: writes to it are ignored, and a `LOAD` that completes is above
the payload. -/
theorem sameRunConfig_of_exec_decodeCmd {c : HostCmd} {s t : State} (hr : s.status = .run)
    (h : exec (decodeCmd c) s = .next t) : SameRunConfig s t := by
  cases c with
  | write n v =>
    obtain rfl : writeReg n v s = t := Host.Outcome.next.inj ((exec_decodeCmd_write n v s).symm.trans h)
    obtain ⟨hm, hn⟩ := writeReg_config_of_running n v hr
    exact sameRunConfig_of_hostSideSame ⟨hm, hn, byteAt_congr (writeReg_input ..) (writeReg_epoch ..)⟩
  | read n =>
    obtain ⟨-, hm, hn, -, hb⟩ := readsAndLoadsLeaveTheCoreSide s t _ (.inl ⟨n, rfl⟩) h
    exact sameRunConfig_of_hostSideSame ⟨hm, hn, hb (by simp)⟩
  | load a b =>
    obtain ⟨-, hother, -, hm, hn, -⟩ := frame_of_exec_load h
    obtain ⟨habove, -⟩ := execLoad_cases h
    exact ⟨hm, hn, fun c hc => hother c fun hca => habove ⟨hr, hca ▸ hc⟩⟩
  | drain i =>
    obtain ⟨-, hm, hn, -, hb⟩ := readsAndLoadsLeaveTheCoreSide s t _ (.inr (.inl ⟨i, rfl⟩)) h
    exact sameRunConfig_of_hostSideSame ⟨hm, hn, hb (by simp)⟩

/-- Settles O43: the fault of the fetch and the codes leave the host's side, and the host's own commands respect a run. -/
theorem runFreezesConfiguration : Obligations.RunFreezesConfiguration := by
  intro s t hr h hreset
  change SameRunConfig s t
  cases stepCase s with
  | still _ hr' => exact absurd hr hr'
  | pastEnd _ _ _ he =>
    cases he.symm.trans h
    exact sameRunConfig_of_hostSideSame ⟨rfl, rfl, byteAt_congr rfl rfl⟩
  | code _ _ _ _ he =>
    obtain ⟨hhost, -, -⟩ := codesLeaveTheHostSide _ t _ (classify_isCode _ _) (he.symm.trans h)
    exact sameRunConfig_of_hostSideSame hhost
  | badWidth _ _ _ he => cases he.symm.trans h
  | host _ _ _ he => exact sameRunConfig_of_exec_decodeCmd (s := setAgenda s.agenda.tail s) hr (he.symm.trans h)
  | hardReset rest ha => exact absurd ha (hreset rest)

end Sys2Proof.Machine
end

section
/-! SUPPORT. The machine's own faults: which moves raise them and what they write, and that a run which has ended stays as it
is until the host or the hardware reset acts. -/

namespace Sys2Proof.Machine

/-! ### an ended run -/

/-- A script of core turns alone gives the core the turn. -/
theorem coreTurn_of_forall_core {s : State} (h : ∀ m ∈ s.agenda, m = .core) : CoreTurn s := by
  cases ha : s.agenda with
  | nil => exact .inl ha
  | cons m rest =>
    obtain rfl : m = .core := h m (by simp [ha])
    exact .inr ⟨rest, ha⟩

/-- Settles O6, by induction on the number of steps: each is a core turn outside a run, which takes one move off the script. -/
theorem endedRunStaysAsItIs : Obligations.EndedRunStaysAsItIs := by
  intro k
  induction k with
  | zero => exact fun _ _ _ => rfl
  | succ k ih =>
    intro s hr hcore
    have hstep := coreIsStillOutsideRun s hr (coreTurn_of_forall_core hcore)
    have hrest := ih { s with agenda := s.agenda.tail } hr fun m hm => hcore m (List.mem_of_mem_tail hm)
    rw [run_succ_of_step hstep, hrest, List.drop_tail]

/-- A host transaction that changes `STATUS` is a write to `CTRL` with a command bit set. -/
theorem isCommand_of_hostCase_status_ne {c : HostCmd} {s t : State} (hc : HostCase c s t) (ht : t.status ≠ s.status) :
    ∃ v, c = .write 0 v ∧ (v.getLsbD 0 = true ∨ v.getLsbD 1 = true) := by
  cases hc with
  | reset v hc h1 _ => exact ⟨v, hc, .inr h1⟩
  | start v hc _ h0 _ => exact ⟨v, hc, .inl h0⟩
  | mincs _ _ he => exact absurd (he ▸ rfl) ht
  | inlen _ _ he => exact absurd (he ▸ rfl) ht
  | load _ _ he => exact absurd (he ▸ rfl) ht
  | answered _ _ he => exact absurd (he ▸ rfl) ht

/-- Settles O47: the core is still outside a run, and of the host's transactions only a command changes `STATUS`. -/
theorem onlyCommandsLeaveDoneAndFault : Obligations.OnlyCommandsLeaveDoneAndFault := by
  intro s t hs h ht
  have hnr : s.status ≠ .run := by rcases hs with hs | hs <;> simp [hs]
  cases stepCase s with
  | still _ _ he =>
    cases he.symm.trans h
    exact absurd rfl ht
  | pastEnd _ hr => exact absurd hr hnr
  | code _ hr => exact absurd hr hnr
  | badWidth _ hr => exact absurd hr hnr
  | host c rest ha he =>
    obtain ⟨v, rfl, hv⟩ := isCommand_of_hostCase_status_ne (hostCase (he.symm.trans h)) ht
    exact .inl ⟨v, rest, ha, hv⟩
  | hardReset rest ha => exact .inr ⟨rest, ha⟩

/-! ### the faults of codes -/

/-- A code leaves `ERR` and does not enter `FAULT`, or it is a `NEXT` or `BAD` whose whole effect is the fault entry
(60_exceptions.md R99, R104). -/
theorem fault_of_codeCase {i : Instr} {s t : State} (hc : CodeCase i s t) :
    t.err = s.err ∧ (t.status = s.status ∨ t.status = .done) ∨
      t = raise .invalidLzwCode s ∧ ∃ code, i = .next code ∨ i = .bad code := by
  cases hc with
  | clear _ _ ht => exact .inl (ht ▸ ⟨rfl, .inl rfl⟩)
  | finish _ ht => exact .inl (ht ▸ ⟨rfl, .inr rfl⟩)
  | emit _ _ _ _ _ ht => exact .inl (ht ▸ ⟨rfl, .inl rfl⟩)
  | grow _ _ _ _ _ _ _ _ _ ht => exact .inl (ht ▸ ⟨rfl, .inl rfl⟩)
  | raise code hi ht => exact .inr ⟨ht, code, hi⟩

/-- Settles O37: a code that does not raise stays in `RUN` or is `DONE`. -/
theorem faultingCodeChangesNothingElse : Obligations.FaultingCodeChangesNothingElse := by
  intro s t i hi hr h ht
  rcases fault_of_codeCase (codeCase hi h) with ⟨-, he | he⟩ | hraise
  · simp [he, hr] at ht
  · simp [he] at ht
  · exact hraise

/-- Settles O38: the codes that raise are of the two other classes. -/
theorem clrEoiKnownNeverFault : Obligations.ClrEoiKnownNeverFault := by
  intro s t i hi h
  have hcode : isCode i = true := by rcases hi with rfl | rfl | ⟨_, rfl⟩ <;> rfl
  rcases fault_of_codeCase (codeCase hcode h) with ⟨herr, he | he⟩ | ⟨-, code, hraise⟩
  · exact ⟨herr, fun hs => he ▸ hs⟩
  · exact ⟨herr, fun _ => by simp [he]⟩
  · rcases hi with rfl | rfl | ⟨_, rfl⟩ <;> simp at hraise

/-! ### the faults of the fetch and of START -/

/-- Settles O4: the fetch checks its bound before all else, also before the width. -/
theorem fetchPastEndFaults : Obligations.FetchPastEndFaults := by
  intro s hr hc hp
  have hp' : pastEnd (setAgenda s.agenda.tail s) = true := (pastEnd_eq_true _).mpr hp
  have hr' : running (setAgenda s.agenda.tail s) = true := by simp [hr]
  rw [step, nextTurn_coreTurn hc, coreTurn, if_pos hr', fetchTurn_pastEnd hp']
  rfl

/-- Settles O49: `START` is `startCommand`, which refuses an illegal `MINCS` by the fault entry. -/
theorem startRefusesIllegalMincs : Obligations.StartRefusesIllegalMincs := by
  intro s hr hm
  have hl : mincsLegal s.mincs = false := by
    rw [← Bool.not_eq_true, mincsLegal_iff]
    omega
  exact ⟨congrArg _ (startCommand_refused s hr hl), rfl⟩

end Sys2Proof.Machine
end

section
/-! SUPPORT. The two resets of an instance: what the hardware reset leaves, and that an accepted START overwrites everything an
earlier run wrote. -/

namespace Sys2Proof.Machine

/-! ### hardware reset -/

/-- After a hardware reset no byte of `IN` is loaded, so each reads as a free value of the new epoch (10_state.md R32; log 3). -/
@[simp] theorem byteAt_hardwareReset (s : State) (a : Nat) :
    byteAt (hardwareReset s) a = Config.unloadedByte (s.epoch + 1) a := by
  rw [byteAt, hardwareReset_input, sparseGet_nil, hardwareReset_epoch, Option.getD_none]

theorem step_of_hardReset {s : State} {rest : List Move} (ha : s.agenda = .hardReset :: rest) :
    step s = .next (hardwareReset (setAgenda rest s)) := by
  rw [step, nextTurn_hardReset ha]

/-- Settles O7: the step is `hardwareReset`, which empties both memories and writes every register, and of the model's own
fields only the epoch. -/
theorem hardwareResetStep : Obligations.HardwareResetStep := fun s rest ha =>
  ⟨hardwareReset (setAgenda rest s), step_of_hardReset ha, rfl, rfl, rfl, rfl, rfl, rfl, rfl, rfl, rfl, rfl, sparseGet_nil,
    byteAt_hardwareReset _, rfl, rfl, rfl⟩

/-- Settles O8: the reset state is not in `RUN` and its `MINCS` is below 2, so `START` refuses it. -/
theorem resetLeavesIdleZeros : Obligations.ResetLeavesIdleZeros :=
  have hstart := (startRefusesIllegalMincs State.reset (by decide) (.inl (by decide))).1
  ⟨rfl, rfl, rfl, rfl, rfl, rfl, rfl, rfl, sparseGet_nil, rfl, rfl, hstart⟩

/-! ### START -/

/-- An accepted START reads only the host's registers, `IN` and the model's own fields; it writes all else
(70_reset_and_hazards.md R115). -/
theorem beginRun_congr {s r : State} (hmincs : r.mincs = s.mincs) (hinlen : r.inlen = s.inlen) (hinput : r.input = s.input)
    (hmodel : ModelSideSame s r) : beginRun r = beginRun s := by
  obtain ⟨hagenda, hanswers, hdraws, hepoch⟩ := hmodel
  simp only [beginRun, clear, hmincs, hinlen, hinput, hagenda, hanswers, hdraws, hepoch]

/-- `START` outside `RUN` with a legal `MINCS` is `beginRun` (43_host_commands.md R90). -/
theorem exec_start_of_mincsLegal {s : State} (hr : s.status ≠ .run) (hl : mincsLegal s.mincs = true) :
    exec .start s = .next (beginRun s) :=
  congrArg _ (startCommand_accepted s hr hl)

/-- Settles O51: `START` is `beginRun` from both states, which `beginRun` maps to one. -/
theorem startForgetsTheEarlierRun : Obligations.StartForgetsTheEarlierRun := by
  intro s r hs hr hlow hhigh hmincs hinlen hinput hmodel
  have hl : mincsLegal s.mincs = true := (mincsLegal_iff _).mpr ⟨hlow, hhigh⟩
  have hexec : exec .start r = .next (beginRun r) := exec_start_of_mincsLegal hr (hmincs ▸ hl)
  rw [beginRun_congr hmincs hinlen hinput hmodel] at hexec
  exact ⟨beginRun s, exec_start_of_mincsLegal hs hl, hexec, rfl⟩

end Sys2Proof.Machine
end

section
/-! SUPPORT. What the spec leaves open, as the model reads it: a `LOAD` during a run, a `DRAIN` beyond `OUTLEN`, and the stops in
states that no run reaches. -/

namespace Sys2Proof.Machine

/-! ### LOAD during a run, DRAIN beyond the output -/

/-- Settles O57: a run refuses exactly the addresses of its payload, and a `LOAD` that completes has the frame of every one. -/
theorem loadDuringARun : Obligations.LoadDuringARun := by
  refine fun s a b hr => ⟨fun ha => (execLoad_eq a b s).trans (if_pos ⟨hr, ha⟩), fun ha => ?_⟩
  have hexec : exec (.load a b) s = .next (writeByte a b s) :=
    (execLoad_eq a b s).trans (if_neg fun hc => Nat.not_lt.mpr ha hc.2)
  exact ⟨_, hexec, frame_of_exec_load hexec⟩

/-- A `DRAIN` of a position without a symbol answers a free one (log 5). -/
theorem exec_drain_of_getElem?_none {i : Nat} {s : State} (hn : s.out[i]? = none) :
    exec (.drain i) s = .next (answer (.sym (drawSymbol s).1) (drawSymbol s).2) := by
  simp only [exec, execDrain, hn]

/-- Settles O59: from `OUTLEN` on, the length of `OUT`, there is no symbol, and the answer drawn leaves what every read leaves. -/
theorem drainBeyondOutputCompletes : Obligations.DrainBeyondOutputCompletes := by
  intro s i hlen hi
  have hexec := exec_drain_of_getElem?_none (List.getElem?_eq_none (hlen ▸ hi))
  obtain ⟨hcore, hm, hn, hagenda, hbytes⟩ := readsAndLoadsLeaveTheCoreSide s _ _ (.inr (.inl ⟨i, rfl⟩)) hexec
  exact ⟨_, (drawSymbol s).1, hexec, rfl, hcore, ⟨hm, hn, hbytes (by simp)⟩, hagenda⟩

/-! ### lookups that find no usable sequence (93_implementation_defined.md U3, U4; log 9) -/

theorem lookup_unassigned {s : State} {c : Nat} (h : sparseGet s.dict c = none) :
    lookup s c = .error .unassignedEntry := by
  rw [lookup, h]

theorem lookup_invalid {s : State} {c : Nat} (h : sparseGet s.dict c = some .invalid) :
    lookup s c = .error .invalidEntry := by
  rw [lookup, h]

theorem lookup_empty {s : State} {c : Nat} (h : sparseGet s.dict c = some (.seq [])) :
    lookup s c = .error .emptyEntry := by
  rw [lookup, h]

/-! ### the stops -/

/-- `KNOWN` stops with the fault of its own entry's lookup, before all else it does. -/
theorem exec_known_of_lookup_error {s : State} {code : Code} {f : Fault} (h : lookup s code.toNat = .error f) :
    exec (.known code) s = .fault f := by
  simp only [exec, execKnown, h]

/-- `NEXT` after a data code has no slot to grow into when the dictionary is full (40_fetch_and_width.md R67). -/
theorem exec_next_of_dict_full {s : State} {code : Code} (hc : s.prev.toNat ≠ clearOf s.mincs) (hf : 4096 ≤ s.dlen.toNat) :
    exec (.next code) s = .fault .dictionaryFull := by
  rw [← prevIsClear_eq_false] at hc
  rw [← dictFull_eq_true] at hf
  simp only [exec, execNext, hc, hf, Bool.false_eq_true, if_false, if_true]

/-- `CLR` with an illegal `MINCS` has no cleared dictionary to write (10_state.md R31 I1). -/
theorem exec_clr_of_not_mincsLegal {s : State} (h : ¬mincsLegal s.mincs = true) :
    exec .clr s = .fault .clearCodeOutOfRange :=
  if_neg h

/-- Settles O60: `KNOWN` by what its slot holds, `NEXT` by the full dictionary, `CLR` by the range of `MINCS`. -/
theorem meaninglessStatesStop : Obligations.MeaninglessStatesStop := by
  refine fun s code => ⟨fun h => ?_, fun h => ?_, fun h => ?_, exec_next_of_dict_full, fun hm => ?_⟩
  · exact exec_known_of_lookup_error (lookup_unassigned h)
  · exact exec_known_of_lookup_error (lookup_invalid h)
  · exact exec_known_of_lookup_error (lookup_empty h)
  · refine exec_clr_of_not_mincsLegal fun hl => ?_
    obtain ⟨hlow, hhigh⟩ := (mincsLegal_iff _).mp hl
    omega

end Sys2Proof.Machine
end
